-- ==== Sys2Proof/Word.lean ====
section
/-! DEFINITION. The plain data types of the block: bytes, 32-bit bus words and byte sequences
(00_scope.md R11, R13). -/
namespace Sys2Proof

/-- An 8-bit unsigned byte; a character is the byte of its ASCII code (00_scope.md R9, R11). -/
abbrev Byte := BitVec 8

/-- A 32-bit bus word or register, bit 0 the least significant (00_scope.md R13). -/
abbrev Word := BitVec 32

/-- `Bytes`, and `Chars` read as ASCII: finite sequences, index 0 the first (00_scope.md R11). -/
abbrev Bytes := List Byte

end Sys2Proof
end

