-- ==== Sys2Proof/Config.lean ====
section
/-! DEFINITION. What an integration fixes: the parameters of 00_scope.md R6.
CAP_IN and BASE are plain data (every legal value is a `Config`); the checksum hash H is an opaque
constant, so that no proof can see a value of it. -/
namespace Sys2Proof

/-- The parameters CAP_IN and BASE (00_scope.md R6). CAP_OUT follows from CAP_IN. -/
structure Config where
  capIn : Nat
  base  : Nat
  deriving DecidableEq, Repr

/-- CAP_OUT = 2·CAP_IN + 16 (00_scope.md R6). -/
def Config.capOut (c : Config) : Nat := 2 * c.capIn + 16

/-- The legal parameters: 64 ≤ CAP_IN ≤ 2040 and BASE aligned to 8 KiB (00_scope.md R6). -/
abbrev Config.Legal (c : Config) : Prop :=
  64 ≤ c.capIn ∧ c.capIn ≤ 2040 ∧ c.base % 0x2000 = 0

/-- The default CAP_IN = 256 of 00_scope.md R6. BASE is open there; 0 is this model's
DESIGN CHOICE (log entry 2, unsafe where a claim leans on it). -/
def Config.default : Config := { capIn := 256, base := 0 }

/-- H, the collaborator's `checksumHash` (00_scope.md R6, 41_framer.md R131): total and
deterministic, nothing else is assumed, not even a length (R133). A free value: log entry 3. -/
opaque Config.checksumHash : Bytes → Bytes

/-- The low seven bits of the byte that carries a character without an ASCII code, by its code point.
00_scope.md R9 gives one byte a character and has every non-ASCII character fail, with every byte from
0x80 on, but not which of these bytes it is: a free value, log entry 17. -/
opaque Config.nonAsciiCode : Nat → BitVec 7

end Sys2Proof
end

