-- ==== Sys2Proof/Machine/State.lean ====
section
/-! DEFINITION. The state of the block and of what stands around it, as plain data
(10_state.md R23 to R38), the reasons a step can stop, and the state after reset. -/
namespace Sys2Proof.Machine

/-- The engine's state ENG (10_state.md R37). -/
inductive Eng where
  | idle
  | run
  deriving DecidableEq, Repr

/-- The error kinds of 60_exceptions.md R200, codes 1 to 7 in this order. -/
inductive ErrKind where
  | invalidCharacter
  | tooShort
  | checksumMismatch
  | versionMismatch
  | illegalCommand
  | inputOverflow
  | hashFault
  deriving DecidableEq, Repr

/-- A byte array as (index, byte) cells: indexes strictly rising, no byte 0x00 listed; an index not
listed reads 0x00 (log entry 1). `Memory.wf` says the form holds. -/
abbrev Memory := List Host.Cell

/-- The width of a bus access (20_memory.md R52 to R55). The spec bounds the host bus's width nowhere; that
every width but 8, 16 and 32 bits is one more access that R55 does not admit, told by its number of bytes
and addressed by its first one, is a DESIGN CHOICE: log entry 20. -/
inductive Width where
  | w8
  | w16
  | w32
  /-- any other number of bytes -/
  | other (bytes : Nat)
  deriving DecidableEq, Repr

/-- One host access at a bus address (00_scope.md R14). An 8-bit write carries its byte in bits 7:0
of the data, a 16-bit write in bits 15:0. -/
inductive Access where
  | read (width : Width) (address : Nat)
  | write (width : Width) (address : Nat) (data : Word)
  deriving DecidableEq, Repr

/-- What can happen next (43_control.md R199, 70_reset_and_hazards.md R230, R231). The list of them
in State is the schedule: log entry 4. -/
inductive Event where
  /-- a host step: one bus access -/
  | host (a : Access)
  /-- a hash collaborator step: the outstanding request, if any, is answered with H of its bytes -/
  | hashAnswer
  /-- a response that answers no outstanding request (an abandoned one's): ignored -/
  | strayResponse (y : Bytes)
  /-- the engine's turn: its complete step, if enabled -/
  | engine
  /-- the reset input is asserted -/
  | resetInput
  deriving DecidableEq, Repr

/-- The state. `cfg` is the configuration, which no step changes; `events` (what happens next) and
`busData` (what the host last read) are the model's own fields; the others are the spec's. -/
structure State where
  cfg        : Config
  /-- ENG (10_state.md R37); BUSY is `eng = run` -/
  eng        : Eng
  /-- CUR, the latched command word (R37) -/
  cur        : Word
  /-- IN_BUF (R23) -/
  inBuf      : Memory
  /-- IN_LEN (R24) -/
  inLen      : BitVec 16
  /-- INOVF (R25) -/
  inovf      : Bool
  /-- OUT_BUF (R26) -/
  outBuf     : Memory
  /-- OUT_LEN (R27) -/
  outLen     : BitVec 16
  /-- VERSION_OUT (R28) -/
  versionOut : Byte
  /-- STATUS.DONE (R29, R30) -/
  done       : Bool
  /-- STATUS.ERR (R29, R33) -/
  err        : Bool
  /-- STATUS.OVR (R29, R34) -/
  ovr        : Bool
  /-- STATUS.ERRCODE (R29, R33) -/
  errcode    : BitVec 4
  /-- STATUS.VALID (R29, R32) -/
  valid      : Bool
  /-- STATUS.CFLAG (R29, R31) -/
  cflag      : Bool
  /-- the hash port: the response that has arrived for the running command, none before it
  (41_framer.md R131; "no request in flight after reset", R38) -/
  digest     : Option Bytes
  busData    : Word
  events     : List Event
  deriving DecidableEq, Repr

/-- Why the machine stops. -/
inductive Fault where
  /-- Raised by a host access outside BASE to BASE + 0x1FFF, which is not addressed to the block
  (20_memory.md R50). Safe: the spec gives such an access no effect on the block (log entry 9). -/
  | outsideRegion (address : Nat)
  deriving DecidableEq, Repr

/-- Why an instruction has no meaning. -/
inductive Refusal where
  /-- Raised by exec for an instruction that has no meaning yet. Safe. No arm of this model uses it. -/
  | notModelled (mnemonic : String)
  deriving DecidableEq, Repr

/-- The reset values of 10_state.md R38 at a given configuration. The buffers' contents are
unspecified there and unobservable; 0x00 is a DESIGN CHOICE (log entry 1), as are the model's own
fields `busData` (log entry 7) and `events` (log entry 4). -/
def State.resetOf (c : Config) : State where
  cfg := c
  eng := .idle
  cur := 0
  inBuf := []
  inLen := 0
  inovf := false
  outBuf := []
  outLen := 0
  versionOut := 0
  done := false
  err := false
  ovr := false
  errcode := 0
  valid := false
  cflag := false
  digest := none
  busData := 0
  events := []

/-- The machine right after reset, at the default CAP_IN of 00_scope.md R6 (log entry 2). -/
def State.reset : State := State.resetOf Config.default

end Sys2Proof.Machine
end

