-- ==== Sys2Proof/Machine/Flags.lean ====
section
/-! DEFINITION. STATUS and its fields: the word the host reads (10_state.md R29), the error codes
(60_exceptions.md R200), and the compression-shape flag (41_framer.md R140). -/
namespace Sys2Proof.Machine

/-- The code of an error kind in STATUS.ERRCODE (60_exceptions.md R200). -/
def ErrKind.code : ErrKind → BitVec 4
  | .invalidCharacter => 1
  | .tooShort => 2
  | .checksumMismatch => 3
  | .versionMismatch => 4
  | .illegalCommand => 5
  | .inputOverflow => 6
  | .hashFault => 7

/-- BUSY = 1 exactly while ENG = RUN (10_state.md R30, R37). -/
def State.busy (s : State) : Bool := decide (s.eng = .run)

/-- STATUS, each field at the weight of its lowest bit; bits 31:11 are hardwired to 0 (10_state.md R29). -/
def State.status (s : State) : Word :=
  BitVec.ofNat 32 (s.busy.toNat + 2 ^ 1 * s.done.toNat + 2 ^ 2 * s.err.toNat + 2 ^ 3 * s.ovr.toNat +
    2 ^ 4 * s.errcode.toNat + 2 ^ 8 * s.valid.toNat + 2 ^ 9 * s.cflag.toNat + 2 ^ 10 * s.inovf.toNat)

/-- CompShape: 33 bytes, the last of them 0x01 (41_framer.md R140, 00_scope.md R10). -/
def compShape (p : Bytes) : Bool := decide (p.length = 33) && decide (p[32]? = some 0x01)

end Sys2Proof.Machine
end

