-- ==== Sys2Proof/Machine/Ops.lean ====
section
/-! DEFINITION. The shared operations: reading and writing the two buffers, the input sequence IN and
the result sequence, and a command's life (43_control.md R190 to R193, R197): accept, the outcome,
the commit, and recording a failure. -/
namespace Sys2Proof.Machine

/-- The canonical form: indexes strictly rising, and no cell equal to what an unlisted index reads as. -/
abbrev Memory.wf (m : Memory) : Prop :=
  m.Pairwise (fun c d => c.1 < d.1) ∧ ∀ c ∈ m, c.2 ≠ 0

/-- What an unlisted index reads as: buffer contents are unspecified at reset and unobservable
(10_state.md R38). DESIGN CHOICE, log entry 1. -/
def Memory.unlisted : Byte := 0

/-- The byte at an index. -/
def Memory.read : Memory → Nat → Byte
  | [], _ => Memory.unlisted
  | c :: m, a => if c.1 = a then c.2 else Memory.read m a

/-- A cell in front, unless it says what an unlisted index says. -/
def Memory.consCell (a : Nat) (b : Byte) (m : Memory) : Memory :=
  if b = Memory.unlisted then m else (a, b) :: m

/-- Store a byte at an index, keeping the canonical form. -/
def Memory.write : Memory → Nat → Byte → Memory
  | [], a, b => Memory.consCell a b []
  | c :: m, a, b =>
    if a < c.1 then Memory.consCell a b (c :: m)
    else if a = c.1 then Memory.consCell a b m
    else c :: Memory.write m a b

/-- Store a byte sequence from an index upwards. -/
def Memory.writeBytes : Memory → Nat → Bytes → Memory
  | m, _, [] => m
  | m, a, b :: bs => Memory.writeBytes (m.write a b) (a + 1) bs

/-- The `n` bytes from an index upwards. -/
def Memory.readBytes (m : Memory) (a : Nat) : Nat → Bytes
  | 0 => []
  | n + 1 => m.read a :: Memory.readBytes m (a + 1) n

/-- IN = IN_BUF[0:IN_LEN] (10_state.md R24). -/
def State.input (s : State) : Bytes := s.inBuf.readBytes 0 s.inLen.toNat

/-- The result sequence OUT_BUF[0:OUT_LEN] (10_state.md R27). -/
def State.output (s : State) : Bytes := s.outBuf.readBytes 0 s.outLen.toNat

/-- The accept of 43_control.md R190: CUR and ENG, the result fields of STATUS and OVR cleared. No
hash response of the new command has arrived yet. -/
def State.accept (w : Word) (s : State) : State :=
  { s with
    cur := w, eng := .run, done := false, err := false, errcode := 0, valid := false,
    cflag := false, ovr := false, digest := none }

/-- The outcome of a command (43_control.md R191, R197). -/
inductive CmdOutcome where
  /-- Ok from B58ENC, B58DEC, CSENC, FRAME -/
  | out (bs : Bytes)
  /-- Ok from CSDEC, UNFRAME: the version byte and the payload -/
  | decoded (version : Byte) (payload : Bytes)
  /-- Valid(b) from CSVAL -/
  | valid (b : Bool)
  /-- ClearIn from CLRIN -/
  | clearIn
  /-- Fail(kind) -/
  | fail (k : ErrKind)
  deriving DecidableEq, Repr

/-- What every completion writes (43_control.md R192, R197): ENG ← IDLE, DONE ← 1, and the result
fields of STATUS cleared; the hash response is consumed. OVR is not written. -/
def State.finish (s : State) : State :=
  { s with
    eng := .idle, done := true, err := false, errcode := 0, valid := false, cflag := false,
    digest := none }

/-- The result sequence written into OUT_BUF from position 0, and OUT_LEN. -/
def State.putOutput (bs : Bytes) (s : State) : State :=
  { s with outBuf := s.outBuf.writeBytes 0 bs, outLen := BitVec.ofNat 16 bs.length }

/-- Recording a failure, the block's "trap entry" (60_exceptions.md R209, 43_control.md R193): ERR
and the kind's code, and nothing else. Its "return" is the next `State.accept` (R210). -/
def State.raiseError (k : ErrKind) (s : State) : State :=
  { s.finish with err := true, errcode := k.code }

/-- The commit: one atomic step that writes an outcome's results and STATUS (43_control.md R192, R197). -/
def State.commit (o : CmdOutcome) (s : State) : State :=
  match o with
  | .out bs => s.finish.putOutput bs
  | .decoded v p => { s.finish.putOutput p with versionOut := v, cflag := compShape p }
  | .valid b => { s.finish with valid := b }
  | .clearIn => { s.finish with inLen := 0, inovf := false }
  | .fail k => s.raiseError k

/-- Every command but CLRIN (43_control.md R191, 60_exceptions.md R208): InputOverflow first; then,
if the command makes a hash request, its complete step is enabled only once the response has arrived
(43_control.md R199), and until then the engine stays as it is (60_exceptions.md R224). `outcome` is
given the collaborator's function, which it asks at most at `request`; the response stands for it. -/
def State.runCommand (request : Option Bytes) (outcome : (Bytes → Bytes) → CmdOutcome) (s : State) :
    State :=
  if s.inovf then s.commit (.fail .inputOverflow)
  else match request, s.digest with
    | none, _ => s.commit (outcome fun _ => [])
    | some _, some y => s.commit (outcome fun _ => y)
    | some _, none => s

end Sys2Proof.Machine
end

