-- ==== Sys2Proof/Machine/Bus.lean ====
section
/-! DEFINITION. The host's side: the address map and what a bus access does
(20_memory.md R50 to R58, 43_control.md R190, R198). -/
namespace Sys2Proof

/-- A bus address in BASE to BASE + 0x1FFF (20_memory.md R50). -/
abbrev Config.inRegion (c : Config) (addr : Nat) : Prop := c.base ≤ addr ∧ addr < c.base + 0x2000

end Sys2Proof

namespace Sys2Proof.Machine

/-- CAPS: CAP_IN in bits 15:0, CAP_OUT in bits 31:16 (10_state.md R35). -/
def capsWord (c : Config) : Word := BitVec.ofNat 32 (c.capIn + 2 ^ 16 * c.capOut)

/-- `OutByte(i)`: OUT_BUF[i] below OUT_LEN, 0x00 from there on (20_memory.md R54). -/
def State.outByte (s : State) (i : Nat) : Byte :=
  if i < s.outLen.toNat then s.outBuf.read i else 0

/-- Four window bytes in little-endian lanes (20_memory.md R54, R57). -/
def State.windowWord (s : State) (i : Nat) : Word :=
  (s.outByte i).setWidth 32 ||| ((s.outByte (i + 1)).setWidth 32 <<< 8) |||
    ((s.outByte (i + 2)).setWidth 32 <<< 16) ||| ((s.outByte (i + 3)).setWidth 32 <<< 24)

/-- A 32-bit read at an aligned offset below the window (20_memory.md R51, R52): CMD, IN_DATA and the
unmapped offsets read 0. -/
def State.readRegister (s : State) (off : Nat) : Word :=
  match off with
  | 0x004 => s.status
  | 0x008 => s.inLen.setWidth 32
  | 0x010 => s.outLen.setWidth 32
  | 0x014 => s.versionOut.setWidth 32
  | 0x018 => capsWord s.cfg
  | _ => 0

/-- The value a read returns, zero-extended to 32 bits (20_memory.md R52, R54, R55); the OUT window
starts at 0x1000 (R51). -/
def State.busRead (s : State) (width : Width) (off : Nat) : Word :=
  match width with
  | .w8 => if 0x1000 ≤ off then (s.outByte (off - 0x1000)).setWidth 32 else 0
  | .w16 => 0
  | .other _ => 0
  | .w32 =>
    if off % 4 = 0 then
      if 0x1000 ≤ off then s.windowWord (off - 0x1000) else s.readRegister off
    else 0

/-- A write of CMD or IN_DATA while BUSY is dropped and sets OVR (43_control.md R198). -/
def State.dropWrite (s : State) : State := { s with ovr := true }

/-- A 32-bit write to CMD (10_state.md R36, 43_control.md R190, R198). -/
def State.writeCmd (w : Word) (s : State) : State :=
  if s.busy then s.dropWrite else s.accept w

/-- A byte stored at IN_BUF[IN_LEN] and counted (20_memory.md R53). -/
def State.storeInput (b : Byte) (s : State) : State :=
  { s with inBuf := s.inBuf.write s.inLen.toNat b, inLen := s.inLen + 1 }

/-- A byte dropped because IN_BUF is full: the sticky INOVF is set (10_state.md R25). -/
def State.overflowInput (s : State) : State := { s with inovf := true }

/-- An IN_DATA append (20_memory.md R53). -/
def State.append (b : Byte) (s : State) : State :=
  if s.busy then s.dropWrite
  else if s.inLen.toNat < s.cfg.capIn then s.storeInput b
  else s.overflowInput

/-- The effect of a write at an offset (20_memory.md R52, R53, R55, R58): CMD by 32 bits, IN_DATA by
32 or 8 bits, nothing anywhere else. -/
def State.busWrite (width : Width) (off : Nat) (data : Word) (s : State) : State :=
  match width with
  | .w8 => if off = 0x00C then s.append (data.setWidth 8) else s
  | .w16 => s
  | .other _ => s
  | .w32 =>
    if off = 0x000 then s.writeCmd data
    else if off = 0x00C then s.append (data.setWidth 8)
    else s

/-- The bus address of an access. -/
def Access.address : Access → Nat
  | .read _ a => a
  | .write _ a _ => a

/-- What the host now holds of its last read (log entry 7). -/
def State.observe (d : Word) (s : State) : State := { s with busData := d }

/-- An access at an offset of the region: a read changes nothing but what the host last read (R58). -/
def State.performAccess (a : Access) (s : State) : State :=
  match a with
  | .read width addr => s.observe (s.busRead width (addr - s.cfg.base))
  | .write width addr data => s.busWrite width (addr - s.cfg.base) data

/-- One host step (43_control.md R199). An address outside the region is not the block's: log entry 9. -/
def hostStep (a : Access) (s : State) : Host.Outcome State Fault Refusal :=
  if s.cfg.inRegion a.address then .next (s.performAccess a)
  else .fault (.outsideRegion a.address)

end Sys2Proof.Machine
end

