-- ==== Sys2Proof/Machine/Operands.lean ====
section
/-! DEFINITION. The operands of a command: the version byte and the optional expected version
(30_encoding.md R81, R82). The other operand, IN, is `State.input` (Machine/Ops.lean). -/
namespace Sys2Proof.Machine

/-- The version operand as the byte CUR[15:8], used as is (30_encoding.md R82). A well-formed command
has it in 0–255, where nothing is cut off (log entry 12). -/
def versionByte (v : Nat) : Byte := BitVec.ofNat 8 v

/-- The expected version of a form with VCHK = 1: `some v` (41_framer.md R138, 42_coinstring.md R161). -/
def expectVersion (v : Nat) : Option Byte := some (versionByte v)

/-- A form with VCHK = 0: no version check (42_coinstring.md R162). -/
def noVersion : Option Byte := none

end Sys2Proof.Machine
end

