-- ==== Sys2Proof/Machine/Base58.lean ====
section
/-! DEFINITION. The Base58 converter: the alphabet (00_scope.md R8, R9), big-endian integers (R12),
B58Encode (40_base58.md R100), B58Decode (R110), and the commands B58ENC (R104) and B58DEC (R114). -/
namespace Sys2Proof.Machine

/-- Table A of 00_scope.md R9, digit values 0 to 57 in order, column by column. -/
def alphabet : Bytes :=
  ([0x31, 0x32, 0x33, 0x34, 0x35, 0x36, 0x37, 0x38, 0x39, 0x41, 0x42, 0x43, 0x44, 0x45, 0x46] : Bytes) ++
  ([0x47, 0x48, 0x4A, 0x4B, 0x4C, 0x4D, 0x4E, 0x50, 0x51, 0x52, 0x53, 0x54, 0x55, 0x56, 0x57] : Bytes) ++
  ([0x58, 0x59, 0x5A, 0x61, 0x62, 0x63, 0x64, 0x65, 0x66, 0x67, 0x68, 0x69, 0x6A, 0x6B, 0x6D] : Bytes) ++
  ([0x6E, 0x6F, 0x70, 0x71, 0x72, 0x73, 0x74, 0x75, 0x76, 0x77, 0x78, 0x79, 0x7A] : Bytes)

/-- The alphabet's zero-symbol `'1'` (00_scope.md R8). -/
def zeroSymbol : Byte := 0x31

/-- ALPHA[x]; a digit is below 58, where the table lists it (00_scope.md R8). -/
def alpha (x : Nat) : Byte := alphabet.getD x zeroSymbol

/-- `digit(c)`: the digit value of a character, none outside the alphabet (00_scope.md R8, R9). -/
def digit (c : Byte) : Option Nat := alphabet.idxOf? c

/-- The number of leading bytes equal to `z`. -/
def leadCount (z : Byte) (bs : Bytes) : Nat := (bs.takeWhile (fun b => b == z)).length

/-- `lz`: leading 0x00 bytes (00_scope.md R12). -/
def lz (bs : Bytes) : Nat := leadCount 0 bs

/-- `l1`: leading `'1'` characters (00_scope.md R12). -/
def l1 (s : Bytes) : Nat := leadCount zeroSymbol s

/-- `BE`: the big-endian value (00_scope.md R12). -/
def beValue (bs : Bytes) : Nat := bs.foldl (fun n b => n * 256 + b.toNat) 0

/-- The remainders of repeated division by `radix`, least significant first, until 0 is left; `fuel`
bounds the divisions. -/
def remainders (radix : Nat) : Nat → Nat → List Nat
  | 0, _ => []
  | fuel + 1, n => if n = 0 then [] else n % radix :: remainders radix fuel (n / radix)

/-- The digits of `n` in a radix above 1, most significant first, none for 0. -/
def digitsOf (radix n : Nat) : List Nat := (remainders radix n n).reverse

/-- `minBE`: the shortest byte sequence of a value (00_scope.md R12). -/
def minBE (n : Nat) : Bytes := (digitsOf 256 n).map (BitVec.ofNat 8)

/-- `B58Encode` (40_base58.md R100). -/
def b58Encode (b : Bytes) : Bytes :=
  List.replicate (lz b) zeroSymbol ++ (digitsOf 58 (beValue b)).map alpha

/-- The characters' digits, or InvalidCharacter if any character is outside the alphabet
(40_base58.md R110, R111). -/
def digitsIn : Bytes → Except ErrKind (List Nat)
  | [] => .ok []
  | c :: s =>
    match digit c, digitsIn s with
    | some d, .ok ds => .ok (d :: ds)
    | _, _ => .error .invalidCharacter

/-- The accumulation N = N · 58 + digit (40_base58.md R110). -/
def radixValue (radix : Nat) (ds : List Nat) : Nat := ds.foldl (fun n d => n * radix + d) 0

/-- `B58Decode` (40_base58.md R110). -/
def b58Decode (s : Bytes) : Except ErrKind Bytes :=
  match digitsIn s with
  | .ok ds => .ok (List.replicate (l1 s) 0 ++ minBE (radixValue 58 ds))
  | .error k => .error k

/-- The outcome of a command whose result is one byte sequence. -/
def outcomeOfBytes : Except ErrKind Bytes → CmdOutcome
  | .ok bs => .out bs
  | .error k => .fail k

/-- B58ENC (40_base58.md R104). -/
def execB58enc (s : State) : Host.Outcome State Fault Refusal :=
  .next (s.runCommand none fun _ => .out (b58Encode s.input))

/-- B58DEC (40_base58.md R114). -/
def execB58dec (s : State) : Host.Outcome State Fault Refusal :=
  .next (s.runCommand none fun _ => outcomeOfBytes (b58Decode s.input))

end Sys2Proof.Machine
end

