-- ==== Sys2Proof/Machine/Framer.lean ====
section
/-! DEFINITION. The Coinstring framer: FrameBuild (41_framer.md R135), Unframe (R136), their hash
requests (R142), and the commands FRAME (R137) and UNFRAME (R138). The collaborator's function is
the parameter `h`. -/
namespace Sys2Proof.Machine

/-- The checksum's length, 4 bytes (00_scope.md R10). -/
def checksumLength : Nat := 4

/-- `Frame(v, p) = [v] ‖ p` (41_framer.md R130). -/
def frameOf (v : Byte) (p : Bytes) : Bytes := v :: p

/-- `Checksum(f) = H(f)[0:4]`, or HashFault if the digest is shorter (41_framer.md R132, R133). -/
def checksum (h : Bytes → Bytes) (f : Bytes) : Except ErrKind Bytes :=
  if (h f).length < checksumLength then .error .hashFault else .ok ((h f).take checksumLength)

/-- `FrameBuild(v, p)` (41_framer.md R135). -/
def frameBuild (h : Bytes → Bytes) (v : Byte) (p : Bytes) : Except ErrKind Bytes :=
  match checksum h (frameOf v p) with
  | .ok c => .ok (frameOf v p ++ c)
  | .error k => .error k

/-- FrameBuild's one request (41_framer.md R142). -/
def frameRequest (v : Byte) (p : Bytes) : Option Bytes := some (frameOf v p)

/-- `EncodedBytes[0 : len-4]` (41_framer.md R136 step 3). -/
def framePart (eb : Bytes) : Bytes := eb.take (eb.length - checksumLength)

/-- `EncodedBytes[len-4 : len]` (41_framer.md R136 step 3). -/
def checksumPart (eb : Bytes) : Bytes := eb.drop (eb.length - checksumLength)

/-- Step 5 of Unframe: the version is compared only when one is expected (41_framer.md R136, R141). -/
def versionOk (ver : Option Byte) (b : Byte) : Bool :=
  match ver with
  | none => true
  | some v => b == v

/-- Steps 5 and 6 of Unframe on a verified frame: the version byte and the payload. -/
def stripFrame (ver : Option Byte) : Bytes → Except ErrKind (Byte × Bytes)
  | [] => .error .tooShort
  | b :: p => if versionOk ver b then .ok (b, p) else .error .versionMismatch

/-- `Unframe(eb, ver)`, in the document's step order (41_framer.md R136, R141). -/
def unframeBytes (h : Bytes → Bytes) (ver : Option Byte) (eb : Bytes) :
    Except ErrKind (Byte × Bytes) :=
  if eb.length < 5 then .error .tooShort
  else match checksum h (framePart eb) with
    | .error k => .error k
    | .ok c => if c = checksumPart eb then stripFrame ver (framePart eb) else .error .checksumMismatch

/-- Unframe's request: none below 5 bytes, else the frame (41_framer.md R141, R142). -/
def unframeRequest (eb : Bytes) : Option Bytes :=
  if eb.length < 5 then none else some (framePart eb)

/-- Bit `k` of byte `i` flipped (42_coinstring.md R169). -/
def flipBit (bs : Bytes) (i k : Nat) : Bytes := bs.modify i fun b => b ^^^ (1#8 <<< k)

/-- `H_detects_flip`, the property of a hash that 42_coinstring.md R169 names and 93_implementation_defined.md
U5 makes a parameter: it maps no frame with one bit flipped to the frame's first four digest bytes. An
assumption of the claims that name it; the block gives no such guarantee (log entry 19). -/
def HDetectsFlip (h : Bytes → Bytes) : Prop :=
  ∀ (f : Bytes) (i k : Nat), i < f.length → k < 8 →
    (h (flipBit f i k)).take checksumLength ≠ (h f).take checksumLength

/-- The outcome of a command whose result is a version byte and a payload. -/
def outcomeOfDecoded : Except ErrKind (Byte × Bytes) → CmdOutcome
  | .ok r => .decoded r.1 r.2
  | .error k => .fail k

/-- FRAME v (41_framer.md R137). -/
def execFrameV (v : Nat) (s : State) : Host.Outcome State Fault Refusal :=
  .next (s.runCommand (frameRequest (versionByte v) s.input) fun h =>
    outcomeOfBytes (frameBuild h (versionByte v) s.input))

/-- UNFRAME, no version check (41_framer.md R138). -/
def execUnframe (s : State) : Host.Outcome State Fault Refusal :=
  .next (s.runCommand (unframeRequest s.input) fun h =>
    outcomeOfDecoded (unframeBytes h noVersion s.input))

/-- UNFRAME v (41_framer.md R138). -/
def execUnframeV (v : Nat) (s : State) : Host.Outcome State Fault Refusal :=
  .next (s.runCommand (unframeRequest s.input) fun h =>
    outcomeOfDecoded (unframeBytes h (expectVersion v) s.input))

end Sys2Proof.Machine
end

