-- ==== Sys2Proof/Machine/Coinstring.lean ====
section
/-! DEFINITION. The Coinstring codec: the document's `encode`, `decode` and `validate`, and the
commands CSENC (42_coinstring.md R160), CSDEC (R161) and CSVAL (R163). -/
namespace Sys2Proof.Machine

/-- `encode(version, payload)`: Base58 of FrameBuild (42_coinstring.md R160). -/
def csEncode (h : Bytes → Bytes) (v : Byte) (p : Bytes) : Except ErrKind Bytes :=
  match frameBuild h v p with
  | .ok eb => .ok (b58Encode eb)
  | .error k => .error k

/-- `decode(version, s)` and `decode(s)`: Base58 decode, then Unframe (42_coinstring.md R161). -/
def csDecode (h : Bytes → Bytes) (ver : Option Byte) (s : Bytes) : Except ErrKind (Byte × Bytes) :=
  match b58Decode s with
  | .ok eb => unframeBytes h ver eb
  | .error k => .error k

/-- The request of a decode: only after step 1 succeeded, and only from 5 bytes on
(41_framer.md R142, 42_coinstring.md R161, R163). -/
def csDecodeRequest (s : Bytes) : Option Bytes :=
  match b58Decode s with
  | .ok eb => unframeRequest eb
  | .error _ => none

/-- CSVAL's outcome: HashFault is reported, every other failure is `false` (42_coinstring.md R163, R164). -/
def outcomeOfValidate : Except ErrKind (Byte × Bytes) → CmdOutcome
  | .ok _ => .valid true
  | .error .hashFault => .fail .hashFault
  | .error _ => .valid false

/-- CSENC v (42_coinstring.md R160). -/
def execCsencV (v : Nat) (s : State) : Host.Outcome State Fault Refusal :=
  .next (s.runCommand (frameRequest (versionByte v) s.input) fun h =>
    outcomeOfBytes (csEncode h (versionByte v) s.input))

/-- CSDEC, no version check (42_coinstring.md R161, R162). -/
def execCsdec (s : State) : Host.Outcome State Fault Refusal :=
  .next (s.runCommand (csDecodeRequest s.input) fun h =>
    outcomeOfDecoded (csDecode h noVersion s.input))

/-- CSDEC v (42_coinstring.md R161). -/
def execCsdecV (v : Nat) (s : State) : Host.Outcome State Fault Refusal :=
  .next (s.runCommand (csDecodeRequest s.input) fun h =>
    outcomeOfDecoded (csDecode h (expectVersion v) s.input))

/-- CSVAL v (42_coinstring.md R163). -/
def execCsvalV (v : Nat) (s : State) : Host.Outcome State Fault Refusal :=
  .next (s.runCommand (csDecodeRequest s.input) fun h =>
    outcomeOfValidate (csDecode h (expectVersion v) s.input))

end Sys2Proof.Machine
end

