-- ==== Sys2Proof/Machine/Control.lean ====
section
/-! DEFINITION. The control command CLRIN (43_control.md R194). -/
namespace Sys2Proof.Machine

/-- CLRIN: it checks nothing and makes no request (43_control.md R194). -/
def execClrin (s : State) : Host.Outcome State Fault Refusal := .next (s.commit .clearIn)

end Sys2Proof.Machine
end

