-- ==== Sys2Proof/Syntax.lean ====
section
/-! DEFINITION. The ten commands, one constructor per row of spec/opcode_table.json
(30_encoding.md R83, R84). -/
namespace Sys2Proof

/-- A command of the block. The number is the version operand VER as the assembler writes it
(30_encoding.md R82, R88); `Instr.wf` bounds it to 0–255. -/
inductive Instr where
  /-- `b58enc` (40_base58.md R104) -/
  | b58enc
  /-- `b58dec` (40_base58.md R114) -/
  | b58dec
  /-- `csenc v` (42_coinstring.md R160) -/
  | csencV (v : Nat)
  /-- `csdec`, no version check (42_coinstring.md R161, R162) -/
  | csdec
  /-- `csdec v` (42_coinstring.md R161) -/
  | csdecV (v : Nat)
  /-- `csval v` (42_coinstring.md R163) -/
  | csvalV (v : Nat)
  /-- `frame v` (41_framer.md R137) -/
  | frameV (v : Nat)
  /-- `unframe`, no version check (41_framer.md R138) -/
  | unframe
  /-- `unframe v` (41_framer.md R138) -/
  | unframeV (v : Nat)
  /-- `clrin` (43_control.md R194) -/
  | clrin
  deriving DecidableEq, Repr

end Sys2Proof
end

