-- ==== Sys2Proof/Machine/Dispatch.lean ====
section
/-! DEFINITION. Dispatch: each command to its meaning, the engine's complete step for it
(43_control.md R191, R192). -/
namespace Sys2Proof.Machine

def exec (i : Instr) (s : State) : Host.Outcome State Fault Refusal :=
  match i with
  | .b58enc => Sys2Proof.Machine.execB58enc s
  | .b58dec => Sys2Proof.Machine.execB58dec s
  | .csencV v => Sys2Proof.Machine.execCsencV v s
  | .csdec => Sys2Proof.Machine.execCsdec s
  | .csdecV v => Sys2Proof.Machine.execCsdecV v s
  | .csvalV v => Sys2Proof.Machine.execCsvalV v s
  | .frameV v => Sys2Proof.Machine.execFrameV v s
  | .unframe => Sys2Proof.Machine.execUnframe s
  | .unframeV v => Sys2Proof.Machine.execUnframeV v s
  | .clrin => Sys2Proof.Machine.execClrin s

end Sys2Proof.Machine
end

