-- ==== Sys2Proof/WellFormed.lean ====
section
/-! DEFINITION. Which terms of `Instr` are commands: the version operand is a byte. -/
namespace Sys2Proof

/-- "A version operand outside 0–255 is an assembly error, not a command" (30_encoding.md R88).
The other forms take no operand. -/
def Instr.wf : Instr → Bool
  | .b58enc => true
  | .b58dec => true
  | .csencV v => decide (v ≤ 255)
  | .csdec => true
  | .csdecV v => decide (v ≤ 255)
  | .csvalV v => decide (v ≤ 255)
  | .frameV v => decide (v ≤ 255)
  | .unframe => true
  | .unframeV v => decide (v ≤ 255)
  | .clrin => true

end Sys2Proof
end

