-- ==== Sys2Proof/Decode.lean ====
section
/-! DEFINITION. The command word CMD32: its fields (30_encoding.md R81), the decoder, total on every
32-bit word (R87), the encoder (R84), the table of R84, and the host's way into the decoder. -/
namespace Sys2Proof

/-- OP, bits 3:0 (30_encoding.md R81). -/
def opField (w : Word) : BitVec 4 := w.extractLsb' 0 4

/-- VCHK, bit 4 (30_encoding.md R81). -/
def vchkField (w : Word) : Bool := w.getLsbD 4

/-- RSV0, bits 7:5, must be 000 (30_encoding.md R81). -/
def rsv0Field (w : Word) : BitVec 3 := w.extractLsb' 5 3

/-- VER, bits 15:8 (30_encoding.md R81, R82). -/
def verField (w : Word) : Byte := w.extractLsb' 8 8

/-- RSV1, bits 31:16, must be 0x0000 (30_encoding.md R81). -/
def rsv1Field (w : Word) : BitVec 16 := w.extractLsb' 16 16

/-- Why a word is Illegal (30_encoding.md R85). The block reports all of them as IllegalCommand. -/
inductive Reject where
  /-- RSV0 ≠ 0 or RSV1 ≠ 0 -/
  | reservedField
  /-- OP ∈ {0x0, 0x9, …, 0xF} -/
  | illegalOpcode
  /-- VCHK = 1 with OP ∈ {0x1, 0x2, 0x3, 0x6, 0x8} -/
  | checkNotAllowed
  /-- VCHK = 0 with OP = 0x5 -/
  | checkRequired
  /-- VER ≠ 0 with VCHK = 0 in a form that takes no version -/
  | versionNotAllowed
  deriving DecidableEq, Repr

/-- A form with VCHK = 0 and VER = 0x00. -/
def decodeBare (w : Word) (i : Instr) : Except Reject Instr :=
  if vchkField w then .error .checkNotAllowed
  else if verField w = 0 then .ok i
  else .error .versionNotAllowed

/-- A form with VCHK = 0 and any VER. -/
def decodeVersioned (w : Word) (i : Nat → Instr) : Except Reject Instr :=
  if vchkField w then .error .checkNotAllowed else .ok (i (verField w).toNat)

/-- A form with an optional version check: `v` when VCHK = 1, none (and VER = 0x00) when VCHK = 0. -/
def decodeChecked (w : Word) (bare : Instr) (i : Nat → Instr) : Except Reject Instr :=
  if vchkField w then .ok (i (verField w).toNat)
  else if verField w = 0 then .ok bare
  else .error .versionNotAllowed

/-- The decoder of 30_encoding.md R87; an error is the rule's `Illegal`. -/
def decode (w : Word) : Except Reject Instr :=
  if rsv1Field w ≠ 0 ∨ rsv0Field w ≠ 0 then .error .reservedField
  else match (opField w).toNat with
    | 0x1 => decodeBare w .b58enc
    | 0x2 => decodeBare w .b58dec
    | 0x3 => decodeVersioned w .csencV
    | 0x4 => decodeChecked w .csdec .csdecV
    | 0x5 => if vchkField w then .ok (.csvalV (verField w).toNat) else .error .checkRequired
    | 0x6 => decodeVersioned w .frameV
    | 0x7 => decodeChecked w .unframe .unframeV
    | 0x8 => decodeBare w .clrin
    | _ => .error .illegalOpcode

/-- `match | (v << 8)` (30_encoding.md R84). -/
def versionedWord (fixed : Word) (v : Nat) : Word := fixed ||| (BitVec.ofNat 32 v <<< 8)

/-- The word of a command, by the "match" column of 30_encoding.md R84. -/
def encode : Instr → Word
  | .b58enc => 0x00000001#32
  | .b58dec => 0x00000002#32
  | .csencV v => versionedWord 0x00000003#32 v
  | .csdec => 0x00000004#32
  | .csdecV v => versionedWord 0x00000014#32 v
  | .csvalV v => versionedWord 0x00000015#32 v
  | .frameV v => versionedWord 0x00000006#32 v
  | .unframe => 0x00000007#32
  | .unframeV v => versionedWord 0x00000017#32 v
  | .clrin => 0x00000008#32

/-- The assembler's check (30_encoding.md R88): no word for an operand outside 0–255. -/
def assemble (i : Instr) : Option Word := if i.wf then some (encode i) else none

/-- One row of the legality table of 30_encoding.md R84. -/
structure OpcodeRow where
  pattern : Word
  mask    : Word
  deriving DecidableEq, Repr

/-- The table of 30_encoding.md R84, in its order. -/
def opcodeTable : List OpcodeRow :=
  [⟨0x00000001#32, 0xFFFFFFFF#32⟩, ⟨0x00000002#32, 0xFFFFFFFF#32⟩,
   ⟨0x00000003#32, 0xFFFF00FF#32⟩, ⟨0x00000004#32, 0xFFFFFFFF#32⟩,
   ⟨0x00000014#32, 0xFFFF00FF#32⟩, ⟨0x00000015#32, 0xFFFF00FF#32⟩,
   ⟨0x00000006#32, 0xFFFF00FF#32⟩, ⟨0x00000007#32, 0xFFFFFFFF#32⟩,
   ⟨0x00000017#32, 0xFFFF00FF#32⟩, ⟨0x00000008#32, 0xFFFFFFFF#32⟩]

/-- The row of 30_encoding.md R84 that a command's form has. -/
def Instr.row : Instr → OpcodeRow
  | .b58enc => ⟨0x00000001#32, 0xFFFFFFFF#32⟩
  | .b58dec => ⟨0x00000002#32, 0xFFFFFFFF#32⟩
  | .csencV _ => ⟨0x00000003#32, 0xFFFF00FF#32⟩
  | .csdec => ⟨0x00000004#32, 0xFFFFFFFF#32⟩
  | .csdecV _ => ⟨0x00000014#32, 0xFFFF00FF#32⟩
  | .csvalV _ => ⟨0x00000015#32, 0xFFFF00FF#32⟩
  | .frameV _ => ⟨0x00000006#32, 0xFFFF00FF#32⟩
  | .unframe => ⟨0x00000007#32, 0xFFFFFFFF#32⟩
  | .unframeV _ => ⟨0x00000017#32, 0xFFFF00FF#32⟩
  | .clrin => ⟨0x00000008#32, 0xFFFFFFFF#32⟩

/-- A word matches a row when it agrees with it on the row's mask. -/
def OpcodeRow.Matches (r : OpcodeRow) (w : Word) : Prop := w &&& r.mask = r.pattern

/-- The command this decoder reads from the low `nbits` bits of `w`, the bits above them 0. Every
command is exactly one 32-bit word (30_encoding.md R80), so more than 32 bits spell none. -/
def decodeTableWord (nbits w : Nat) : Option Instr :=
  if nbits ≤ 32 then (decode (BitVec.ofNat 32 (w % 2 ^ nbits))).toOption else none

end Sys2Proof
end

