-- ==== Sys2Proof/Machine/HashPort.lean ====
section
/-! DEFINITION. The port to the hash collaborator (41_framer.md R131, R142): which request a command
makes, the request that is outstanding, and the collaborator's answer. -/
namespace Sys2Proof.Machine

/-- The one request a command makes on an input, if it makes one (41_framer.md R142). -/
def commandRequest (i : Instr) (inp : Bytes) : Option Bytes :=
  match i with
  | .b58enc => none
  | .b58dec => none
  | .csencV v => frameRequest (versionByte v) inp
  | .csdec => csDecodeRequest inp
  | .csdecV _ => csDecodeRequest inp
  | .csvalV _ => csDecodeRequest inp
  | .frameV v => frameRequest (versionByte v) inp
  | .unframe => unframeRequest inp
  | .unframeV _ => unframeRequest inp
  | .clrin => none

/-- The request the running command makes: none when the engine is idle, CUR is illegal, or INOVF = 1
(43_control.md R191, R195). -/
def State.neededRequest (s : State) : Option Bytes :=
  if s.busy && !s.inovf then
    match decode s.cur with
    | .ok i => commandRequest i s.input
    | .error _ => none
  else none

/-- The outstanding request: the needed one, until its response has arrived. It stands from the
accept on (log entry 6). -/
def State.hashRequest (s : State) : Option Bytes :=
  match s.digest with
  | some _ => none
  | none => s.neededRequest

/-- The response `y` of the running command's request has arrived. -/
def State.receiveDigest (y : Bytes) (s : State) : State := { s with digest := some y }

/-- A hash collaborator step: the outstanding request is answered with H of its bytes; with none
outstanding nothing happens (41_framer.md R131, 70_reset_and_hazards.md R231). -/
def State.hashAnswer (s : State) : State :=
  match s.hashRequest with
  | some f => s.receiveDigest (Config.checksumHash f)
  | none => s

end Sys2Proof.Machine
end

