-- ==== Sys2Proof/Machine/Engine.lean ====
section
/-! DEFINITION. The engine's turn, the reset input, what one event does, and a command placed for the
engine's next turn. -/
namespace Sys2Proof.Machine

/-- The engine's turn (43_control.md R191, R192, R195): idle, nothing; an illegal word completes with
IllegalCommand; a command is executed, or waits for its hash response. -/
def engineStep (s : State) : Host.Outcome State Fault Refusal :=
  match s.eng with
  | .idle => .next s
  | .run =>
    match decode s.cur with
    | .ok i => exec i s
    | .error _ => .next (s.commit (.fail .illegalCommand))

/-- What is still to happen after an event has been taken. -/
def State.withEvents (es : List Event) (s : State) : State := { s with events := es }

/-- The reset input (70_reset_and_hazards.md R230, R231): every piece of the block's state at its
reset value. What stands outside the block stays: its configuration, what the host last read, what
happens next (log entry 10). -/
def State.assertReset (s : State) : State :=
  ((State.resetOf s.cfg).observe s.busData).withEvents s.events

/-- What one event does (43_control.md R199). -/
def performEvent (e : Event) (s : State) : Host.Outcome State Fault Refusal :=
  match e with
  | .host a => hostStep a s
  | .hashAnswer => .next s.hashAnswer
  | .strayResponse _ => .next s
  | .engine => engineStep s
  | .resetInput => .next s.assertReset

/-- The engine's turn comes next: at once with no event listed, else by an event in front. -/
def engineFirst : List Event → List Event
  | [] => []
  | e :: es => .engine :: e :: es

/-- A command word accepted as by a CMD write (43_control.md R190), its hash request, if it makes one,
answered, and the engine's turn next: the next step completes it (log entry 8). -/
def State.placeCommand (w : Word) (s : State) : State :=
  (s.accept w).hashAnswer.withEvents (engineFirst s.events)

end Sys2Proof.Machine
end

