-- ==== Sys2Proof/Machine/Step.lean ====
section
/-! DEFINITION. One step of the machine: the next listed event, or, with none listed, the engine's turn;
and the host's way to place a command word. -/
namespace Sys2Proof.Machine

/-- One step (43_control.md R199). -/
def step (s : State) : Host.Outcome State Fault Refusal :=
  match s.events with
  | [] => engineStep s
  | e :: es => performEvent e (s.withEvents es)

/-- `s` with the command word placed so that the next step executes it (log entry 8). -/
def State.withFetchWord (s : State) (nbits w : Nat) : State :=
  s.placeCommand (BitVec.ofNat 32 (w % 2 ^ nbits))

end Sys2Proof.Machine
end

