-- ==== Sys2Proof/Machine/Assembler.lean ====
section
/-! DEFINITION. The assembler syntax of a command: a lower-case mnemonic, and a version operand in decimal
or hexadecimal where the form has one (30_encoding.md R88). Spaces between the words, and both cases of a
hex digit, are this model's reading of it, as is the form of an operand: DESIGN CHOICE, log entry 18. -/
namespace Sys2Proof.Machine

/-- The value of a digit character in a radix up to 16, none if it is no digit of it. -/
def digitValue (radix : Nat) (c : Char) : Option Nat :=
  let n := c.toNat
  let v := if 0x30 ≤ n ∧ n ≤ 0x39 then n - 0x30
    else if 0x41 ≤ n ∧ n ≤ 0x46 then n - 0x37
    else if 0x61 ≤ n ∧ n ≤ 0x66 then n - 0x57
    else radix
  if v < radix then some v else none

/-- The value of digits behind a value already read. -/
def numberFrom (radix : Nat) : Nat → List Char → Option Nat
  | n, [] => some n
  | n, c :: cs =>
    match digitValue radix c with
    | some d => numberFrom radix (n * radix + d) cs
    | none => none

/-- An operand in decimal (`128`) or hexadecimal (`0x80`): at least one digit. That it may have any number
of digits, leading zeros among them, and that the prefix is in lower case: DESIGN CHOICE, log entry 18. The
check that its value is a byte is `assemble`'s (30_encoding.md R88). -/
def parseOperand : List Char → Option Nat
  | '0' :: 'x' :: c :: cs => numberFrom 16 0 (c :: cs)
  | c :: cs => numberFrom 10 0 (c :: cs)
  | [] => none

/-- The words of a line, separated by spaces; `word` is the one being read, reversed. -/
def splitWords : List Char → List Char → List (List Char)
  | word, [] => if word = [] then [] else [word.reverse]
  | word, c :: cs =>
    if c = ' ' then
      if word = [] then splitWords [] cs else word.reverse :: splitWords [] cs
    else splitWords (c :: word) cs

/-- A form without an operand. -/
def parseBare (mnemonic : List Char) : Option Instr :=
  if mnemonic = "b58enc".toList then some .b58enc
  else if mnemonic = "b58dec".toList then some .b58dec
  else if mnemonic = "csdec".toList then some .csdec
  else if mnemonic = "unframe".toList then some .unframe
  else if mnemonic = "clrin".toList then some .clrin
  else none

/-- A form with a version operand. -/
def parseVersioned (mnemonic : List Char) (v : Nat) : Option Instr :=
  if mnemonic = "csenc".toList then some (.csencV v)
  else if mnemonic = "csdec".toList then some (.csdecV v)
  else if mnemonic = "csval".toList then some (.csvalV v)
  else if mnemonic = "frame".toList then some (.frameV v)
  else if mnemonic = "unframe".toList then some (.unframeV v)
  else none

/-- The command that a statement's text names, before its operand is checked. -/
def parseCommand (text : String) : Option Instr :=
  match splitWords [] text.toList with
  | [mnemonic] => parseBare mnemonic
  | [mnemonic, operand] => (parseOperand operand).bind (parseVersioned mnemonic)
  | _ => none

/-- The word a command statement assembles to; none for an assembly error (30_encoding.md R88). -/
def assembleText (text : String) : Option Word := (parseCommand text).bind assemble

end Sys2Proof.Machine
end

