-- ==== Sys2Proof/Machine/HostProgram.lean ====
section
/-! DEFINITION. The host's statements and pseudo-instructions (30_encoding.md R88 to R90) as lists of
events, for a block at bus address `base`. -/
namespace Sys2Proof.Machine

/-- `wr32 off, val` (30_encoding.md R89). -/
def wr32 (base off : Nat) (val : Word) : Event := .host (.write .w32 (base + off) val)

/-- `wr8 off, val` (30_encoding.md R89). -/
def wr8 (base off : Nat) (val : Byte) : Event := .host (.write .w8 (base + off) (val.setWidth 32))

/-- `rd32 off` (30_encoding.md R89); the value is left in `busData`. -/
def rd32 (base off : Nat) : Event := .host (.read .w32 (base + off))

/-- `rd8 off` (30_encoding.md R89); the value is left in `busData`. -/
def rd8 (base off : Nat) : Event := .host (.read .w8 (base + off))

/-- `push b0, …, bn−1` (30_encoding.md R90). -/
def push (base : Nat) (bs : Bytes) : List Event := bs.map (wr8 base 0x00C)

/-- The byte that carries a character: its ASCII code, and for a character that has none a byte from 0x80
on, outside the alphabet (00_scope.md R9). Which one is a free value: DESIGN CHOICE, log entry 17. -/
def charByte (c : Char) : Byte :=
  if c.toNat < 0x80 then BitVec.ofNat 8 c.toNat
  else 0x80#8 ||| (Config.nonAsciiCode c.toNat).setWidth 8

/-- The bytes of a text, one a character (00_scope.md R9). -/
def asciiBytes (text : String) : Bytes := text.toList.map charByte

/-- `pushs "text"` (30_encoding.md R90). -/
def pushs (base : Nat) (text : String) : List Event := push base (asciiBytes text)

/-- The bytes of hex digits, two a byte, first byte first (00_scope.md R11). None for a text that is no hex
string, an odd number of digits among them: DESIGN CHOICE, log entry 18. -/
def hexBytes : List Char → Option Bytes
  | [] => some []
  | [_] => none
  | a :: b :: cs =>
    match digitValue 16 a, digitValue 16 b, hexBytes cs with
    | some x, some y, some bs => some (BitVec.ofNat 8 (16 * x + y) :: bs)
    | _, _, _ => none

/-- The bytes of a hex string, written with the prefix 0x as in 00_scope.md R11 or without it as in
95_test_vectors.md. That either form is read, and a prefix in lower case only: DESIGN CHOICE, log entry 18. -/
def hexString : List Char → Option Bytes
  | '0' :: 'x' :: cs => hexBytes cs
  | cs => hexBytes cs

/-- `pushhex "h"` (30_encoding.md R90). -/
def pushhex (base : Nat) (h : String) : Option (List Event) := (hexString h.toList).map (push base)

/-- A command statement: `wr32 0x000, word` (30_encoding.md R88). -/
def command (base : Nat) (i : Instr) : Event := wr32 base 0x000 (encode i)

/-- `wait` (30_encoding.md R90) on a command that completes after `polls` STATUS reads that saw BUSY:
the collaborator answers if it is asked, the engine completes, and the last read sees BUSY = 0. The
number of polls stands for LAT (00_scope.md R6). -/
def wait (base polls : Nat) : List Event :=
  List.replicate polls (rd32 base 0x004) ++ [.hashAnswer, .engine, rd32 base 0x004]

/-- `run cmd` (30_encoding.md R90). -/
def runCmd (base : Nat) (i : Instr) (polls : Nat) : List Event := command base i :: wait base polls

/-- `loadhex` on the bytes, `load` on a text's (30_encoding.md R90). -/
def load (base polls : Nat) (bs : Bytes) : List Event := runCmd base .clrin polls ++ push base bs

/-- `readout` when OUT_LEN is `n` (30_encoding.md R90). -/
def readout (base n : Nat) : List Event :=
  rd32 base 0x010 :: (List.range n).map fun j => rd8 base (0x1000 + j)

/-- `forVersion v`: the words ENC_v, DEC_v, VAL_v (30_encoding.md R90, 42_coinstring.md R170). -/
def forVersion (v : Nat) : Word × Word × Word :=
  (encode (.csencV v), encode (.csdecV v), encode (.csvalV v))

end Sys2Proof.Machine
end

