-- ==== Sys2Proof/Machine/Outcome.lean ====
section
/-! DEFINITION. The outcome of a command as the pure function of (CUR, INOVF, IN, H) that 43_control.md
R191 states, written without the engine's lifecycle: what every completion is held against. -/
namespace Sys2Proof.Machine

/-- The document's function of each command, on an input and a hash (43_control.md R191). -/
def commandOutcome (h : Bytes → Bytes) (i : Instr) (inp : Bytes) : CmdOutcome :=
  match i with
  | .b58enc => .out (b58Encode inp)
  | .b58dec => outcomeOfBytes (b58Decode inp)
  | .csencV v => outcomeOfBytes (csEncode h (versionByte v) inp)
  | .csdec => outcomeOfDecoded (csDecode h noVersion inp)
  | .csdecV v => outcomeOfDecoded (csDecode h (expectVersion v) inp)
  | .csvalV v => outcomeOfValidate (csDecode h (expectVersion v) inp)
  | .frameV v => outcomeOfBytes (frameBuild h (versionByte v) inp)
  | .unframe => outcomeOfDecoded (unframeBytes h noVersion inp)
  | .unframeV v => outcomeOfDecoded (unframeBytes h (expectVersion v) inp)
  | .clrin => .clearIn

/-- `Exec(CUR)` of 43_control.md R191: Illegal first, then CLRIN, then InputOverflow, then the command. -/
def execOutcome (h : Bytes → Bytes) (w : Word) (inovf : Bool) (inp : Bytes) : CmdOutcome :=
  match decode w with
  | .error _ => .fail .illegalCommand
  | .ok i =>
    if i = .clrin then .clearIn
    else if inovf then .fail .inputOverflow
    else commandOutcome h i inp

end Sys2Proof.Machine
end

