-- ==== Sys2Proof/Safety.lean ====
section
/-! DEFINITION. What a sound state is: the invariant that every step keeps, when a run has ended, and
the words in which claims say what a completion writes and what it leaves unchanged. -/
namespace Sys2Proof.Machine

/-- The invariant of the block's state, each clause with the rule that states it. -/
structure State.Inv (s : State) : Prop where
  /-- 00_scope.md R6 -/
  cfgLegal : s.cfg.Legal
  /-- IN_BUF in canonical form, within its CAP_IN bytes (10_state.md R23) -/
  inBufWf : s.inBuf.wf
  inBufBound : ∀ c ∈ s.inBuf, c.1 < s.cfg.capIn
  /-- OUT_BUF in canonical form, within its CAP_OUT bytes (10_state.md R26) -/
  outBufWf : s.outBuf.wf
  outBufBound : ∀ c ∈ s.outBuf, c.1 < s.cfg.capOut
  /-- 10_state.md R24 -/
  inLenBound : s.inLen.toNat ≤ s.cfg.capIn
  /-- 10_state.md R27 -/
  outLenBound : s.outLen.toNat ≤ s.cfg.capOut
  /-- INOVF is set only when IN is full (10_state.md R25) -/
  inovfFull : s.inovf = true → s.inLen.toNat = s.cfg.capIn
  /-- BUSY and DONE are never both 1 (10_state.md R30) -/
  notBusyDone : ¬(s.busy = true ∧ s.done = true)
  /-- ERR = 0 exactly when ERRCODE = 0 (10_state.md R33) -/
  errIffCode : s.err = false ↔ s.errcode = 0
  /-- ERRCODE 8 to 15 are never produced (60_exceptions.md R200) -/
  errcodeLegal : s.errcode.toNat ≤ 7
  /-- from reset or an accept until a completion the result fields are clear (43_control.md R190) -/
  clearBeforeDone : s.done = false → s.err = false ∧ s.valid = false ∧ s.cflag = false
  /-- a failed command leaves VALID and CFLAG 0 (43_control.md R197) -/
  clearOnError : s.err = true → s.valid = false ∧ s.cflag = false
  /-- InputOverflow is reported only while INOVF = 1 (60_exceptions.md R202) -/
  overflowCode : s.errcode = 6 → s.inovf = true
  /-- CFLAG reports the compressed shape of the result (10_state.md R31) -/
  cflagShape : s.cflag = true → compShape s.output = true
  /-- a response that has arrived is H of the running command's request (41_framer.md R131) -/
  digestAnswers : ∀ y, s.digest = some y →
    ∃ f, s.neededRequest = some f ∧ y = Config.checksumHash f

/-- The block is quiescent: ENG = IDLE and nothing is left to happen (70_reset_and_hazards.md R249). -/
def State.Quiescent (s : State) : Prop := s.eng = .idle ∧ s.events = []

/-- The engine's turn comes next: its event is listed first, or none is listed (log entry 4). -/
def State.EngineTurn (s : State) : Prop := s.events = [] ∨ ∃ es, s.events = .engine :: es

/-- The state without the event that is taken next. -/
def State.takeEvent (s : State) : State := s.withEvents s.events.tail

/-- What a command needs of the buffers to leave its whole result in OUT: legal parameters, a
canonical OUT_BUF, and IN within its capacity. Every state that meets the invariant has it. -/
abbrev State.Ready (s : State) : Prop :=
  s.cfg.Legal ∧ s.outBuf.wf ∧ s.inLen.toNat ≤ s.cfg.capIn

/-- IN_BUF, IN_LEN and INOVF are unchanged. -/
def State.KeepsInput (s t : State) : Prop :=
  t.inBuf = s.inBuf ∧ t.inLen = s.inLen ∧ t.inovf = s.inovf

/-- The result registers are unchanged (10_state.md R28). -/
def State.KeepsResults (s t : State) : Prop :=
  t.outBuf = s.outBuf ∧ t.outLen = s.outLen ∧ t.versionOut = s.versionOut

/-- What no completion writes: the parameters, CUR, OVR, and what stands outside the block. -/
def State.KeepsShell (s t : State) : Prop :=
  t.cfg = s.cfg ∧ t.cur = s.cur ∧ t.ovr = s.ovr ∧ t.busData = s.busData ∧ t.events = s.events

/-- STATUS after a completion (43_control.md R197): BUSY = 0, DONE = 1 and the result fields; the hash
port holds no response any more. -/
def State.Completed (t : State) (err : Bool) (code : BitVec 4) (valid cflag : Bool) : Prop :=
  t.eng = .idle ∧ t.done = true ∧ t.err = err ∧ t.errcode = code ∧ t.valid = valid ∧
    t.cflag = cflag ∧ t.digest = none

/-- `bs` is the result sequence, and every OUT_BUF byte outside it is unchanged. -/
def State.WroteOutput (s t : State) (bs : Bytes) : Prop :=
  t.output = bs ∧ t.outLen.toNat = bs.length ∧
    ∀ i, bs.length ≤ i → t.outBuf.read i = s.outBuf.read i

/-- The command failed with `k` and wrote nothing but STATUS (43_control.md R193). -/
def State.FailedWith (s t : State) (k : ErrKind) : Prop :=
  t.Completed true k.code false false ∧ s.KeepsInput t ∧ s.KeepsResults t ∧ s.KeepsShell t

/-- The commands whose success writes OUT_BUF and OUT_LEN (10_state.md R27). -/
def producesOutput : Instr → Bool
  | .b58enc => true
  | .b58dec => true
  | .csencV _ => true
  | .csdec => true
  | .csdecV _ => true
  | .csvalV _ => false
  | .frameV _ => true
  | .unframe => true
  | .unframeV _ => true
  | .clrin => false

/-- The commands whose success writes VERSION_OUT (10_state.md R28). -/
def producesVersion : Instr → Bool
  | .b58enc => false
  | .b58dec => false
  | .csencV _ => false
  | .csdec => true
  | .csdecV _ => true
  | .csvalV _ => false
  | .frameV _ => false
  | .unframe => true
  | .unframeV _ => true
  | .clrin => false

/-- An access the block answers as read-as-zero / write-ignored, at an offset of the region
(20_memory.md R55): 16-bit, or of a width other than 8 and 32 bits (log entry 20); 32-bit misaligned; 8-bit
below the window but for the IN_DATA write; unmapped; a write to the window. -/
def RazWi (write : Bool) (width : Width) (off : Nat) : Prop :=
  (width ≠ .w8 ∧ width ≠ .w32) ∨ (width = .w32 ∧ off % 4 ≠ 0) ∨
    (width = .w8 ∧ off < 0x1000 ∧ ¬(write = true ∧ off = 0x00C)) ∨
    (0x01C ≤ off ∧ off < 0x1000) ∨ (write = true ∧ 0x1000 ≤ off)

/-- An event that neither answers the collaborator's request nor resets the block, and an access, if it
is one, addressed to it. -/
def NoAnswerNoReset (c : Config) : Event → Prop
  | .host a => c.inRegion a.address
  | .hashAnswer => False
  | .strayResponse _ => True
  | .engine => True
  | .resetInput => False

/-- An event that neither writes CMD nor resets the block, and an access, if it is one, addressed to it. -/
def NoCommandNoReset (c : Config) : Event → Prop
  | .host a => c.inRegion a.address ∧ ∀ w, a ≠ .write .w32 c.base w
  | .hashAnswer => True
  | .strayResponse _ => True
  | .engine => True
  | .resetInput => False

/-- An upper-case letter's byte (00_scope.md R9). -/
def isUpper (c : Byte) : Bool := decide (0x41 ≤ c.toNat) && decide (c.toNat ≤ 0x5A)

/-- A letter lower-cased; every other character as it is (40_base58.md R119). -/
def lowerCase (c : Byte) : Byte := if isUpper c then c + 0x20 else c

end Sys2Proof.Machine
end

