-- ==== Sys2Proof/Certificates/Slice0/Obligations.lean ====
section
/-! DEFINITION. The statements for the provers. Each docstring names the rules of spec/ it formalises.
A command's own statement quantifies over every hash response, since H is open (log entry 3). -/
open Sys2Proof Sys2Proof.Machine

/-! ### Encoding -/

/-- Decoding an encoded well-formed command gives it back (30_encoding.md R84, R87). -/
def Obligations.DecodeOfEncodeIsTheCommand : Prop :=
  ∀ i : Instr, i.wf = true → decode (encode i) = .ok i

/-- Each legal word has one meaning: a decoded command is well-formed and its word is the one decoded
(30_encoding.md R84, R87); the version operand is the byte CUR[15:8], used as is, in every form that
carries one (R82). -/
def Obligations.DecodedCommandHasOneWord : Prop :=
  ∀ (w : Word) (i : Instr), decode w = .ok i → i.wf = true ∧ encode i = w ∧
    ∀ v, (i = .csencV v ∨ i = .csdecV v ∨ i = .csvalV v ∨ i = .frameV v ∨ i = .unframeV v) →
      versionByte v = verField w ∧ v = w.toNat / 256 % 256

/-- 30_encoding.md R84, R87: legal exactly when the word matches a row of R84, and then that row's form;
no word matches two rows. -/
def Obligations.LegalExactlyWhenOneRowMatches : Prop :=
  (∀ (w : Word) (i : Instr), decode w = .ok i → i.row ∈ opcodeTable ∧ i.row.Matches w) ∧
  (∀ (w : Word) (r : OpcodeRow), r ∈ opcodeTable → r.Matches w →
    ∃ i, decode w = .ok i ∧ i.row = r) ∧
  ∀ (w : Word) (r r' : OpcodeRow), r ∈ opcodeTable → r' ∈ opcodeTable →
    r.Matches w → r'.Matches w → r = r'

/-- 30_encoding.md R85: the illegal words, listed by their fields. -/
def Obligations.IllegalWordsAreTheListedOnes : Prop :=
  ∀ w : Word, (∃ r, decode w = .error r) ↔
    ((opField w = 0x0 ∨ 0x9 ≤ (opField w).toNat) ∨
     (rsv0Field w ≠ 0 ∨ rsv1Field w ≠ 0) ∨
     (vchkField w = true ∧ opField w ∈ [0x1, 0x2, 0x3, 0x6, 0x8]) ∨
     (vchkField w = false ∧ opField w = 0x5) ∨
     (vchkField w = false ∧ verField w ≠ 0 ∧ opField w ∈ [0x1, 0x2, 0x4, 0x7, 0x8]) ∨
     (verField w ≠ 0 ∧ opField w ∈ [0x1, 0x2, 0x8]))

/-- Words written out from 30_encoding.md R84 and from 95_test_vectors.md K5 to K13, one of each
family, and what they decode to. -/
def Obligations.SampleWordsDecode : Prop :=
  decode 0x00000001#32 = .ok .b58enc ∧ decode 0x00000002#32 = .ok .b58dec ∧
  decode 0x00008003#32 = .ok (.csencV 0x80) ∧ decode 0x0000FF03#32 = .ok (.csencV 0xFF) ∧
  decode 0x00000014#32 = .ok (.csdecV 0) ∧ decode 0x00000515#32 = .ok (.csvalV 5) ∧
  decode 0x00000006#32 = .ok (.frameV 0) ∧ decode 0x00000117#32 = .ok (.unframeV 1) ∧
  decode 0x00000008#32 = .ok .clrin ∧
  (∀ w ∈ [0x00000000#32, 0x00000009#32, 0x00000011#32, 0x00000101#32, 0x00000005#32, 0x00000104#32,
    0x00000013#32, 0x00000023#32, 0x00010003#32], ∃ r, decode w = .error r)

/-! ### Reset, the step, and the invariant -/

/-- 10_state.md R38, 70_reset_and_hazards.md R230: the reset input, in any state, at any time, puts the
block's state at the reset values. That CAP_IN, BASE and what the host last read stay is the model's
choice (log entry 10), as are the buffers' contents, on which nothing here rests. -/
def Obligations.ResetInputGivesResetValues : Prop :=
  ∀ (s : State) (es : List Event), s.events = .resetInput :: es →
    ∃ t, step s = .next t ∧ t.eng = .idle ∧ t.cur = 0 ∧ t.inLen = 0 ∧ t.inovf = false ∧
      t.outLen = 0 ∧ t.versionOut = 0 ∧ t.status = 0 ∧ t.input = [] ∧ t.output = [] ∧
      t.digest = none ∧ t.hashRequest = none ∧ t.cfg = s.cfg ∧ t.events = es

/-- The state after reset has the reset values of 10_state.md R38, and CAPS reads 0x02100100 at the
default parameters (R35). -/
def Obligations.ResetStateReadsAsSpecified : Prop :=
  State.reset.eng = .idle ∧ State.reset.cur = 0 ∧ State.reset.status = 0 ∧
  State.reset.readRegister 0x000 = 0 ∧ State.reset.readRegister 0x004 = 0 ∧
  State.reset.readRegister 0x008 = 0 ∧ State.reset.readRegister 0x00C = 0 ∧
  State.reset.readRegister 0x010 = 0 ∧ State.reset.readRegister 0x014 = 0 ∧
  State.reset.readRegister 0x018 = 0x02100100#32 ∧ State.reset.hashRequest = none

/-- The invariant holds after reset. -/
def Obligations.ResetMeetsTheInvariant : Prop := State.reset.Inv

/-- Every step keeps the invariant: legal parameters, canonical buffers within their arrays, IN_LEN and
OUT_LEN within capacity, INOVF only when full, BUSY and DONE never both, ERR = 0 exactly when
ERRCODE = 0, no reserved code, clear fields before a completion, and a response that is H of the running
command's request. -/
def Obligations.EveryStepKeepsTheInvariant : Prop :=
  ∀ s t : State, s.Inv → step s = .next t → t.Inv

/-- When the engine is in RUN and CUR decodes to a command, the engine's turn is exec of that command:
with no event listed at this state, with an engine event in front at the state without it. -/
def Obligations.StepExecutesTheDecodedCommand : Prop :=
  ∀ (s : State) (i : Instr), s.eng = .run → decode s.cur = .ok i →
    (s.events = [] → step s = exec i s) ∧
    (∀ es, s.events = .engine :: es → step s = exec i (s.withEvents es))

/-- A well-formed command's word, placed, is what the next step executes, from every state with no
event listed. -/
def Obligations.PlacedCommandIsExecutedNext : Prop :=
  ∀ (s : State) (i : Instr), i.wf = true → s.events = [] →
    decodeTableWord 32 (encode i).toNat = some i ∧
    step (s.withFetchWord 32 (encode i).toNat) = exec i (s.withFetchWord 32 (encode i).toNat)

/-- The model stops in one case only, a host access outside the region (the model's choice, log
entry 9), and it refuses nothing: every illegal word, failure and unsupported access is a next state
(60_exceptions.md R209, R212, 20_memory.md R55). -/
def Obligations.StepStopsOnlyOutsideTheRegion : Prop :=
  ∀ s : State, (∀ r, step s ≠ .refused r) ∧
    ∀ r, step s = .fault r ↔
      ∃ a es, s.events = .host a :: es ∧ ¬ s.cfg.inRegion a.address ∧ r = .outsideRegion a.address

/-! ### The host's accesses -/

/-- 43_control.md R190: a 32-bit write of any word to CMD while BUSY = 0 is accepted; INOVF, IN and the
result registers are unchanged. -/
def Obligations.CmdWriteIsAccepted : Prop :=
  ∀ (s : State) (w : Word) (es : List Event), s.busy = false →
    s.events = .host (.write .w32 s.cfg.base w) :: es →
    ∃ t, step s = .next t ∧ t.cur = w ∧ t.eng = .run ∧ t.busy = true ∧ t.done = false ∧
      t.err = false ∧ t.errcode = 0 ∧ t.valid = false ∧ t.cflag = false ∧ t.ovr = false ∧
      s.KeepsInput t ∧ s.KeepsResults t ∧ t.cfg = s.cfg ∧ t.busData = s.busData ∧ t.events = es

/-- 43_control.md R198: a CMD write or an IN_DATA write, 8- or 32-bit, while BUSY = 1 changes nothing
except OVR ← 1. -/
def Obligations.BusyWriteOnlySetsOvr : Prop :=
  ∀ (s : State) (a : Access) (es : List Event), s.busy = true → s.events = .host a :: es →
    (∃ w, a = .write .w32 s.cfg.base w ∨ a = .write .w32 (s.cfg.base + 0x00C) w ∨
      a = .write .w8 (s.cfg.base + 0x00C) w) →
    step s = .next { s with ovr := true, events := es }

/-- 20_memory.md R53: an IN_DATA write of 8 or 32 bits is dropped with OVR while BUSY = 1; while BUSY = 0 it
appends the low byte of its data, or, when IN is full, drops it and sets INOVF. Nothing else changes, and no
stored byte of IN_BUF but the appended one. -/
def Obligations.AppendExtendsInput : Prop :=
  ∀ (s : State) (width : Width) (v : Word) (es : List Event), (width = .w8 ∨ width = .w32) →
    s.events = .host (.write width (s.cfg.base + 0x00C) v) :: es →
    (s.busy = true → step s = .next { s with ovr := true, events := es }) ∧
    (s.busy = false → ∃ t, step s = .next t ∧ s.KeepsResults t ∧
      t.cfg = s.cfg ∧ t.cur = s.cur ∧ t.eng = s.eng ∧ t.done = s.done ∧ t.err = s.err ∧
      t.ovr = s.ovr ∧ t.errcode = s.errcode ∧ t.valid = s.valid ∧ t.cflag = s.cflag ∧
      t.digest = s.digest ∧ t.busData = s.busData ∧ t.events = es ∧
      (s.inLen.toNat < s.cfg.capIn → s.inBuf.wf → s.inLen.toNat < 65535 →
        t.input = s.input ++ [v.setWidth 8] ∧ t.inLen.toNat = s.inLen.toNat + 1 ∧
        t.inovf = s.inovf ∧
        ∀ x, x ≠ s.inLen.toNat → t.inBuf.read x = s.inBuf.read x) ∧
      (s.cfg.capIn ≤ s.inLen.toNat → t.inBuf = s.inBuf ∧ t.inLen = s.inLen ∧ t.inovf = true))

/-- 20_memory.md R58: a read, of any offset and any width, changes no state; what the host holds of it
is the value read (the model's own field, log entry 7). That a read of a width other than 8, 16 and 32 bits
is one access is the model's choice (log entry 20). -/
def Obligations.ReadsChangeNothing : Prop :=
  ∀ (s : State) (width : Width) (off : Nat) (es : List Event), off < 0x2000 →
    s.events = .host (.read width (s.cfg.base + off)) :: es →
    step s = .next { s with busData := s.busRead width off, events := es }

/-- 10_state.md R29: STATUS, bit by bit; BUSY is ENG = RUN (R30) and bits 31:11 are 0. The codes of
ERRCODE are those of 60_exceptions.md R200, distinct, never 0 and never 8 to 15. -/
def Obligations.StatusLayoutAndErrorCodes : Prop :=
  (∀ s : State,
    (s.status.getLsbD 0 = true ↔ s.eng = .run) ∧ s.status.getLsbD 1 = s.done ∧
    s.status.getLsbD 2 = s.err ∧ s.status.getLsbD 3 = s.ovr ∧
    s.status.extractLsb' 4 4 = s.errcode ∧ s.status.getLsbD 8 = s.valid ∧
    s.status.getLsbD 9 = s.cflag ∧ s.status.getLsbD 10 = s.inovf ∧
    ∀ k, 11 ≤ k → s.status.getLsbD k = false) ∧
  ErrKind.invalidCharacter.code = 1 ∧ ErrKind.tooShort.code = 2 ∧
  ErrKind.checksumMismatch.code = 3 ∧ ErrKind.versionMismatch.code = 4 ∧
  ErrKind.illegalCommand.code = 5 ∧ ErrKind.inputOverflow.code = 6 ∧ ErrKind.hashFault.code = 7 ∧
  ∀ k k' : ErrKind, (k.code = k'.code → k = k') ∧ k.code ≠ 0 ∧ k.code.toNat ≤ 7

/-- 20_memory.md R51, R52: what a 32-bit read of each register returns. -/
def Obligations.RegisterReadsAreTheMap : Prop :=
  ∀ s : State, s.busRead .w32 0x000 = 0 ∧ s.busRead .w32 0x004 = s.status ∧
    (s.busRead .w32 0x008).toNat = s.inLen.toNat ∧ s.busRead .w32 0x00C = 0 ∧
    (s.busRead .w32 0x010).toNat = s.outLen.toNat ∧
    (s.busRead .w32 0x014).toNat = s.versionOut.toNat ∧
    (s.cfg.Legal →
      (s.busRead .w32 0x018).toNat = s.cfg.capIn + 65536 * (2 * s.cfg.capIn + 16))

/-- 20_memory.md R55, R52: an access not admitted reads 0 or is ignored, and a 32-bit write to a read-only
register is ignored (R52); neither changes state, OVR included, even while BUSY = 1. That an access of a
width other than 8, 16 and 32 bits is one such access is the model's choice (log entry 20), as is the field
that holds the 0 read (log entry 7). -/
def Obligations.UnsupportedAccessIsRazWi : Prop :=
  ∀ (s : State) (width : Width) (off : Nat) (v : Word), off < 0x2000 →
    (RazWi false width off → ∀ es, s.events = .host (.read width (s.cfg.base + off)) :: es →
      step s = .next { s with busData := 0, events := es }) ∧
    (RazWi true width off ∨ (width = .w32 ∧ off ∈ [0x004, 0x008, 0x010, 0x014, 0x018]) →
      ∀ es, s.events = .host (.write width (s.cfg.base + off) v) :: es → step s = .next (s.withEvents es))

/-- 20_memory.md R54, R57: window reads return OUT below OUT_LEN and 0x00 from there on, the lowest
position in bits 7:0; an 8-bit read agrees with its lane of the 32-bit read; a window write is ignored. -/
def Obligations.WindowReadsReturnTheResult : Prop :=
  ∀ (s : State) (i : Nat), i < 4096 →
    s.busRead .w8 (0x1000 + i) = (s.output.getD i 0).setWidth 32 ∧
    (∀ j k, k < 4 → i = 4 * j + k →
      (s.busRead .w32 (0x1000 + 4 * j)).extractLsb' (8 * k) 8 = s.output.getD i 0) ∧
    (s.outLen.toNat ≤ s.cfg.capOut → s.cfg.capOut ≤ i → s.output.getD i 0 = 0) ∧
    ∀ width v es, s.events = .host (.write width (s.cfg.base + (0x1000 + i)) v) :: es →
      step s = .next (s.withEvents es)

/-! ### The converter -/

/-- 00_scope.md R8, R9: the alphabet is the string of R8, in ascending order; the digit value of the
character at position i is i; the bytes outside it are those listed. An ASCII character is the byte of its
code, and a text with a character that has none fails to decode, whichever byte from 0x80 on carries it
(log entry 17). -/
def Obligations.AlphabetIsTableA : Prop :=
  alphabet = asciiBytes "123456789ABCDEFGHJKLMNPQRSTUVWXYZabcdefghijkmnopqrstuvwxyz" ∧
  alphabet.length = 58 ∧ alphabet.Pairwise (fun a b => a.toNat < b.toNat) ∧ zeroSymbol = alpha 0 ∧
  (∀ (c : Byte) (x : Nat), digit c = some x ↔ alphabet[x]? = some c) ∧
  (∀ (c : Byte) (x : Nat), digit c = some x ↔ x < 58 ∧ alpha x = c) ∧
  (∀ c : Byte, digit c = none ↔
    (c.toNat ≤ 0x30 ∨ (0x3A ≤ c.toNat ∧ c.toNat ≤ 0x40) ∨ c.toNat = 0x49 ∨ c.toNat = 0x4F ∨
     (0x5B ≤ c.toNat ∧ c.toNat ≤ 0x60) ∨ c.toNat = 0x6C ∨ 0x7B ≤ c.toNat)) ∧
  (∀ c : Char, c.toNat < 128 → (charByte c).toNat = c.toNat) ∧
  ∀ text : String, (∃ c ∈ text.toList, 128 ≤ c.toNat) →
    b58Decode (asciiBytes text) = .error .invalidCharacter

/-- 00_scope.md R12: minBE(N) is the shortest byte sequence whose value is N. -/
def Obligations.MinBeIsShortest : Prop :=
  ∀ n : Nat, beValue (minBE n) = n ∧ (∀ b ∈ (minBE n).head?, b ≠ 0) ∧
    ∀ bs : Bytes, beValue bs = n → (minBE n).length ≤ bs.length

/-- 40_base58.md R115: decode(encode(b)) = b for every byte sequence. In the block: B58DEC on the result of
B58ENC reproduces its input, and the result fits in IN up to ⌊CAP_IN · log 58 / log 256⌋ bytes, the largest
n with 256^n ≤ 58^CAP_IN (187 at CAP_IN = 256). -/
def Obligations.Base58RoundTrip : Prop :=
  (∀ b : Bytes, b58Decode (b58Encode b) = .ok b) ∧
  (∀ (b : Bytes) (cap : Nat), 256 ^ b.length ≤ 58 ^ cap → (b58Encode b).length ≤ cap) ∧
  (256 ^ 187 ≤ 58 ^ 256 ∧ 58 ^ 256 < 256 ^ 188) ∧
  ∀ s s' t : State, s.Ready → s'.Ready → s.inovf = false → s'.inovf = false →
    exec .b58enc s = .next t → s'.input = t.output →
    ∃ t', exec .b58dec s' = .next t' ∧ t'.output = s.input ∧ t'.err = false

/-- 40_base58.md R116: every alphabet string is the encoding of what it decodes to; B58Encode is a bijection
onto the alphabet strings, and no two strings decode to the same bytes. -/
def Obligations.Base58InverseOnAlphabetStrings : Prop :=
  (∀ s : Bytes, (∀ c ∈ s, c ∈ alphabet) → ∃ b, b58Decode s = .ok b ∧ b58Encode b = s) ∧
  (∀ b : Bytes, ∀ c ∈ b58Encode b, c ∈ alphabet) ∧
  (∀ b b' : Bytes, b58Encode b = b58Encode b' → b = b') ∧
  ∀ s s' b : Bytes, b58Decode s = .ok b → b58Decode s' = .ok b → s = s'

/-- 40_base58.md R101, R112: leading zero bytes and leading '1' characters correspond, both ways, and the
characters are the digits of the bytes' value: an encoding's digits are lz(b) zeros and then the base-58
representation of BE(b) without leading zeros (R101), and a string decodes to bytes of its digits' value
(R110). -/
def Obligations.LeadingZerosArePreserved : Prop :=
  (∀ b : Bytes, l1 (b58Encode b) = lz b) ∧
  (∀ b : Bytes, ∃ ds, digitsIn (b58Encode b) = .ok (List.replicate (lz b) 0 ++ ds) ∧
    (∀ d ∈ ds, d < 58) ∧ (∀ d ∈ ds.head?, d ≠ 0) ∧ radixValue 58 ds = beValue b ∧
    radixValue 58 (List.replicate (lz b) 0 ++ ds) = beValue b) ∧
  (∀ s b : Bytes, b58Decode s = .ok b → lz b = l1 s) ∧
  ∀ (s : Bytes) (ds : List Nat), digitsIn s = .ok ds →
    ∃ b, b58Decode s = .ok b ∧ beValue b = radixValue 58 ds

/-- 40_base58.md R111, R120: decoding fails exactly when some character is outside the alphabet, and
only with InvalidCharacter. -/
def Obligations.DecodeFailsOnlyOnInvalidCharacters : Prop :=
  ∀ (s : Bytes) (k : ErrKind), b58Decode s = .error k ↔
    k = .invalidCharacter ∧ ∃ c ∈ s, c ∉ alphabet

/-- 40_base58.md R103: the exact length of an encoding, lz(b) + D(BE(b)) with D(N) the least d such that
58^d > N, and its bounds ⌈1.3657·n⌉ and 2n. -/
def Obligations.EncodingLength : Prop :=
  ∀ b : Bytes, ∃ d, (b58Encode b).length = lz b + d ∧ beValue b < 58 ^ d ∧
    (∀ e, beValue b < 58 ^ e → d ≤ e) ∧
    10000 * (b58Encode b).length ≤ 13657 * b.length + 9999 ∧ (b58Encode b).length ≤ 2 * b.length

/-- 40_base58.md R118: no conversion output exceeds CAP_OUT. -/
def Obligations.ConversionOutputsFit : Prop :=
  ∀ (c : Config) (inp : Bytes), c.Legal → inp.length ≤ c.capIn →
    (b58Encode inp).length ≤ c.capOut ∧
    (∀ b, b58Decode inp = .ok b → b.length ≤ c.capIn) ∧
    (∀ h v s, csEncode h v inp = .ok s → s.length ≤ c.capOut)

/-- 40_base58.md R119: lower-casing a decodable string that has an upper-case letter changes it, and
the result is undecodable or decodes to other bytes; a string without one is unchanged. -/
def Obligations.CaseIsSignificant : Prop :=
  ∀ (s b : Bytes), b58Decode s = .ok b →
    ((∃ c ∈ s, isUpper c = true) → s.map lowerCase ≠ s ∧
      (0x6C ∈ s.map lowerCase → b58Decode (s.map lowerCase) = .error .invalidCharacter) ∧
      b58Decode (s.map lowerCase) ≠ .ok b) ∧
    ((∀ c ∈ s, isUpper c = false) → s.map lowerCase = s)

/-! ### The framer and the codec -/

/-- 41_framer.md R136, R141: Unframe, step by step in the document's order; the length check comes before
the hash request. -/
def Obligations.UnframeFollowsTheStepOrder : Prop :=
  ∀ (h : Bytes → Bytes) (ver : Option Byte) (eb : Bytes),
    (eb.length < 5 → unframeBytes h ver eb = .error .tooShort ∧ unframeRequest eb = none) ∧
    (∀ (b : Byte) (p c : Bytes), eb = b :: p ++ c → c.length = 4 →
      unframeRequest eb = some (b :: p) ∧
      ((h (b :: p)).length < 4 → unframeBytes h ver eb = .error .hashFault) ∧
      (4 ≤ (h (b :: p)).length → (h (b :: p)).take 4 ≠ c →
        unframeBytes h ver eb = .error .checksumMismatch) ∧
      (4 ≤ (h (b :: p)).length → (h (b :: p)).take 4 = c →
        (∀ v, ver = some v → b ≠ v → unframeBytes h ver eb = .error .versionMismatch) ∧
        ((∀ v, ver = some v → b = v) → unframeBytes h ver eb = .ok (b, p))))

/-- 41_framer.md R139: what FrameBuild built, Unframe verifies, with and without the version. -/
def Obligations.BuiltFrameVerifies : Prop :=
  ∀ (h : Bytes → Bytes) (v : Byte) (p eb : Bytes), frameBuild h v p = .ok eb →
    unframeBytes h none eb = .ok (v, p) ∧ unframeBytes h (some v) eb = .ok (v, p)

/-- 41_framer.md R143, 42_coinstring.md R169: a change in the last four bytes of a built frame is always
detected; a change in its frame part is, unless H maps the altered frame to the same first four bytes (a
digest that is too short is a HashFault, R133). So one bit flipped in what an encoded string decodes to,
re-encoded, keeps its length and is a ChecksumMismatch: for every H in the checksum bytes, and in every
byte for an H with the named property `H_detects_flip`. The spec names that property and does not write it
out: the form `HDetectsFlip` gives it is the model's (DEDUCED, log entry 19). -/
def Obligations.ChecksumByteFlipIsDetected : Prop :=
  (∀ (h : Bytes → Bytes) (v : Byte) (p eb eb' : Bytes) (ver : Option Byte),
    frameBuild h v p = .ok eb → eb'.length = eb.length → eb' ≠ eb →
    (framePart eb' = framePart eb → unframeBytes h ver eb' = .error .checksumMismatch) ∧
    (framePart eb' ≠ framePart eb →
      ((h (framePart eb')).length < 4 → unframeBytes h ver eb' = .error .hashFault) ∧
      (4 ≤ (h (framePart eb')).length →
        (unframeBytes h ver eb' = .error .checksumMismatch ↔
          (h (framePart eb')).take 4 ≠ checksumPart eb')))) ∧
  ∀ (h : Bytes → Bytes) (v : Byte) (p s : Bytes) (ver : Option Byte), csEncode h v p = .ok s →
    ∃ eb, b58Decode s = .ok eb ∧ eb.length = p.length + 5 ∧
      ∀ i k, i < eb.length → k < 8 →
        flipBit eb i k ≠ eb ∧
        b58Decode (b58Encode (flipBit eb i k)) = .ok (flipBit eb i k) ∧
        (flipBit eb i k).length = eb.length ∧
        (eb.length - 4 ≤ i →
          csDecode h ver (b58Encode (flipBit eb i k)) = .error .checksumMismatch) ∧
        (i < eb.length - 4 →
          framePart (flipBit eb i k) = flipBit (framePart eb) i k ∧
          ((h (flipBit (framePart eb) i k)).length < 4 →
            csDecode h ver (b58Encode (flipBit eb i k)) = .error .hashFault) ∧
          (4 ≤ (h (flipBit (framePart eb) i k)).length →
            (csDecode h ver (b58Encode (flipBit eb i k)) = .error .checksumMismatch ↔
              (h (flipBit (framePart eb) i k)).take 4 ≠ (h (framePart eb)).take 4) ∧
            (HDetectsFlip h →
              csDecode h ver (b58Encode (flipBit eb i k)) = .error .checksumMismatch)))

/-- 42_coinstring.md R167, R168: decoding an encoded payload recovers version and payload, and any other
expected version is a VersionMismatch, for every hash. In the block: CSDEC v and CSDEC on the result of
CSENC v, under the same response, recover them; the string fits in IN when the payload and 5 bytes are at
most ⌊CAP_IN · log 58 / log 256⌋ bytes (182 payload bytes at CAP_IN = 256). -/
def Obligations.CodecRoundTrip : Prop :=
  (∀ (h : Bytes → Bytes) (v : Byte) (p s : Bytes), csEncode h v p = .ok s →
    csDecode h none s = .ok (v, p) ∧ csDecode h (some v) s = .ok (v, p) ∧
    (∀ w, w ≠ v → csDecode h (some w) s = .error .versionMismatch) ∧
    ∀ cap, 256 ^ (p.length + 5) ≤ 58 ^ cap → s.length ≤ cap) ∧
  (256 ^ (182 + 5) ≤ 58 ^ 256 ∧ 58 ^ 256 < 256 ^ (183 + 5)) ∧
  ∀ (s s' t : State) (v : Nat) (y : Bytes), s.Ready → s'.Ready → s.inovf = false →
    s'.inovf = false → s.digest = some y → s'.digest = some y → 4 ≤ y.length → v ≤ 255 →
    exec (.csencV v) s = .next t → s'.input = t.output →
    ∀ i ∈ [Instr.csdec, .csdecV v], ∃ t', exec i s' = .next t' ∧ t'.output = s.input ∧
      t'.versionOut.toNat = v ∧ t'.err = false

/-- 42_coinstring.md R174: a 32-byte key under version 0x80 encodes to 51 characters beginning `5`; with
0x01 appended, to 52 beginning `K` or `L`; for every key and every hash of at least 4 bytes. -/
def Obligations.WifShape : Prop :=
  ∀ (h : Bytes → Bytes) (key : Bytes), key.length = 32 →
    (4 ≤ (h (0x80 :: key)).length →
      ∃ s, csEncode h 0x80 key = .ok s ∧ s.length = 51 ∧ s.head? = some 0x35) ∧
    (4 ≤ (h (0x80 :: (key ++ [0x01]))).length →
      ∃ s, csEncode h 0x80 (key ++ [0x01]) = .ok s ∧ s.length = 52 ∧
        (s.head? = some 0x4B ∨ s.head? = some 0x4C))

/-- 42_coinstring.md R172: lower-casing a string that decodes never gives TooShort. -/
def Obligations.LowerCasedStringIsNeverTooShort : Prop :=
  ∀ (h h' : Bytes → Bytes) (ver ver' : Option Byte) (s : Bytes) (r : Byte × Bytes),
    csDecode h ver s = .ok r → csDecode h' ver' (s.map lowerCase) ≠ .error .tooShort

/-- 41_framer.md R140, 00_scope.md R10: CompShape is 33 bytes with 0x01 at position 32. -/
def Obligations.CompressedShape : Prop :=
  ∀ p : Bytes, compShape p = true ↔ ∃ key : Bytes, key.length = 32 ∧ p = key ++ [0x01]

/-- 41_framer.md R142, R131: the one request of each command, and that with its response arrived none is
outstanding any more. -/
def Obligations.CommandHashRequests : Prop :=
  (∀ (v : Nat) (inp : Bytes),
    commandRequest (.csencV v) inp = some (versionByte v :: inp) ∧
    commandRequest (.frameV v) inp = some (versionByte v :: inp) ∧
    commandRequest .b58enc inp = none ∧ commandRequest .b58dec inp = none ∧
    commandRequest .clrin inp = none ∧
    (∀ i ∈ [Instr.unframe, .unframeV v],
      (inp.length < 5 → commandRequest i inp = none) ∧
      (5 ≤ inp.length → commandRequest i inp = some (inp.take (inp.length - 4)))) ∧
    (∀ i ∈ [Instr.csdec, .csdecV v, .csvalV v],
      (∀ k, b58Decode inp = .error k → commandRequest i inp = none) ∧
      (∀ eb, b58Decode inp = .ok eb → eb.length < 5 → commandRequest i inp = none) ∧
      (∀ eb, b58Decode inp = .ok eb → 5 ≤ eb.length →
        commandRequest i inp = some (eb.take (eb.length - 4))))) ∧
  ∀ (s : State) (y : Bytes), s.digest = some y → s.hashRequest = none ∧ s.hashAnswer = s

/-- 41_framer.md R131, 70_reset_and_hazards.md R231: a collaborator step answers the outstanding request
with H of its bytes and changes nothing else; with none outstanding it is ignored. -/
def Obligations.CollaboratorAnswersWithH : Prop :=
  ∀ (s : State) (es : List Event), s.events = .hashAnswer :: es →
    (∀ f, s.hashRequest = some f →
      step s = .next { s with digest := some (Config.checksumHash f), events := es }) ∧
    (s.hashRequest = none → step s = .next { s with events := es })

/-! ### The commands: results, flags and frames -/

/-- 40_base58.md R104: B58ENC. -/
def Obligations.B58encWritesTheEncoding : Prop :=
  ∀ s : State, s.Ready → s.inovf = false →
    ∃ t, exec .b58enc s = .next t ∧ s.WroteOutput t (b58Encode s.input) ∧
      t.versionOut = s.versionOut ∧ t.Completed false 0 false false ∧ s.KeepsInput t ∧ s.KeepsShell t

/-- 40_base58.md R114: B58DEC, its result and its failure. -/
def Obligations.B58decWritesTheDecoding : Prop :=
  ∀ s : State, s.Ready → s.inovf = false →
    (∀ b, b58Decode s.input = .ok b →
      ∃ t, exec .b58dec s = .next t ∧ s.WroteOutput t b ∧ t.versionOut = s.versionOut ∧
        t.Completed false 0 false false ∧ s.KeepsInput t ∧ s.KeepsShell t) ∧
    ((∃ c ∈ s.input, c ∉ alphabet) →
      ∃ t, exec .b58dec s = .next t ∧ s.FailedWith t .invalidCharacter)

/-- 41_framer.md R137 with R135: FRAME v, given the collaborator's response `y`. -/
def Obligations.FrameAppendsTheChecksum : Prop :=
  ∀ (s : State) (v : Nat) (y : Bytes), s.Ready → s.inovf = false → s.digest = some y →
    (4 ≤ y.length →
      ∃ t, exec (.frameV v) s = .next t ∧
        s.WroteOutput t (versionByte v :: (s.input ++ y.take 4)) ∧
        t.outLen.toNat = s.inLen.toNat + 5 ∧ t.versionOut = s.versionOut ∧
        t.Completed false 0 false false ∧ s.KeepsInput t ∧ s.KeepsShell t) ∧
    (y.length < 4 → ∃ t, exec (.frameV v) s = .next t ∧ s.FailedWith t .hashFault)

/-- 42_coinstring.md R160: CSENC v, given the collaborator's response `y`. -/
def Obligations.CsencWritesTheEncodedFrame : Prop :=
  ∀ (s : State) (v : Nat) (y : Bytes), s.Ready → s.inovf = false → s.digest = some y →
    (4 ≤ y.length →
      ∃ t, exec (.csencV v) s = .next t ∧
        s.WroteOutput t (b58Encode (versionByte v :: (s.input ++ y.take 4))) ∧
        t.versionOut = s.versionOut ∧ t.Completed false 0 false false ∧
        s.KeepsInput t ∧ s.KeepsShell t) ∧
    (y.length < 4 → ∃ t, exec (.csencV v) s = .next t ∧ s.FailedWith t .hashFault)

/-- 41_framer.md R138: UNFRAME and UNFRAME v on an input of at least 5 bytes, given the response `y`,
in the order of R141; the version is compared in the second form only. -/
def Obligations.UnframeStripsAndVerifies : Prop :=
  ∀ (s : State) (y : Bytes) (b : Byte) (p c : Bytes), s.Ready → s.inovf = false →
    s.input = b :: p ++ c → c.length = 4 → s.digest = some y →
    ∀ i : Instr, (i = .unframe ∨ ∃ v, i = .unframeV v) →
    (y.length < 4 → ∃ t, exec i s = .next t ∧ s.FailedWith t .hashFault) ∧
    (4 ≤ y.length → y.take 4 ≠ c → ∃ t, exec i s = .next t ∧ s.FailedWith t .checksumMismatch) ∧
    (4 ≤ y.length → y.take 4 = c → ∀ v, i = .unframeV v → b ≠ versionByte v →
      ∃ t, exec i s = .next t ∧ s.FailedWith t .versionMismatch) ∧
    (4 ≤ y.length → y.take 4 = c → (∀ v, i = .unframeV v → b = versionByte v) →
      ∃ t, exec i s = .next t ∧ s.WroteOutput t p ∧ t.versionOut = b ∧
        t.Completed false 0 false (compShape p) ∧ s.KeepsInput t ∧ s.KeepsShell t)

/-- 42_coinstring.md R161, R162: CSDEC and CSDEC v on a string that decodes to at least 5 bytes, given
the response `y`. -/
def Obligations.CsdecStripsAndVerifies : Prop :=
  ∀ (s : State) (y : Bytes) (b : Byte) (p c : Bytes), s.Ready → s.inovf = false →
    b58Decode s.input = .ok (b :: p ++ c) → c.length = 4 → s.digest = some y →
    ∀ i : Instr, (i = .csdec ∨ ∃ v, i = .csdecV v) →
    (y.length < 4 → ∃ t, exec i s = .next t ∧ s.FailedWith t .hashFault) ∧
    (4 ≤ y.length → y.take 4 ≠ c → ∃ t, exec i s = .next t ∧ s.FailedWith t .checksumMismatch) ∧
    (4 ≤ y.length → y.take 4 = c → ∀ v, i = .csdecV v → b ≠ versionByte v →
      ∃ t, exec i s = .next t ∧ s.FailedWith t .versionMismatch) ∧
    (4 ≤ y.length → y.take 4 = c → (∀ v, i = .csdecV v → b = versionByte v) →
      ∃ t, exec i s = .next t ∧ s.WroteOutput t p ∧ t.versionOut = b ∧
        t.Completed false 0 false (compShape p) ∧ s.KeepsInput t ∧ s.KeepsShell t)

/-- 60_exceptions.md R201, R203, R208: the failures that make no hash request, whatever the hash port
holds: a character outside the alphabet, then fewer than 5 bytes. -/
def Obligations.DecodeFailsBeforeTheHash : Prop :=
  ∀ (s : State) (v : Nat), s.inovf = false →
    (∀ i ∈ [Instr.csdec, .csdecV v], (∃ c ∈ s.input, c ∉ alphabet) →
      ∃ t, exec i s = .next t ∧ s.FailedWith t .invalidCharacter) ∧
    (∀ i ∈ [Instr.csdec, .csdecV v], ∀ eb, b58Decode s.input = .ok eb → eb.length < 5 →
      ∃ t, exec i s = .next t ∧ s.FailedWith t .tooShort) ∧
    (∀ i ∈ [Instr.unframe, .unframeV v], s.inLen.toNat < 5 →
      ∃ t, exec i s = .next t ∧ s.FailedWith t .tooShort)

/-- 42_coinstring.md R163, R164: CSVAL v answers `true` exactly on a string that decodes under v, `false`
on each of the four decode kinds, and reports HashFault; it writes no result register. -/
def Obligations.CsvalFoldsDecodeFailures : Prop :=
  ∀ (s : State) (v : Nat), s.inovf = false →
    ((∃ c ∈ s.input, c ∉ alphabet) ∨ (∃ eb, b58Decode s.input = .ok eb ∧ eb.length < 5) →
      ∃ t, exec (.csvalV v) s = .next t ∧ t.Completed false 0 false false ∧
        s.KeepsInput t ∧ s.KeepsResults t ∧ s.KeepsShell t) ∧
    (∀ (y : Bytes) (b : Byte) (p c : Bytes), b58Decode s.input = .ok (b :: p ++ c) →
      c.length = 4 → s.digest = some y →
      (y.length < 4 → ∃ t, exec (.csvalV v) s = .next t ∧ s.FailedWith t .hashFault) ∧
      (4 ≤ y.length →
        ∃ t, exec (.csvalV v) s = .next t ∧
          t.Completed false 0 (decide (y.take 4 = c ∧ b = versionByte v)) false ∧
          s.KeepsInput t ∧ s.KeepsResults t ∧ s.KeepsShell t))

/-- 43_control.md R194: CLRIN empties the input, INOVF or not, makes no hash request, and writes no result
register. -/
def Obligations.ClrinEmptiesTheInput : Prop :=
  encode .clrin = 0x00000008#32 ∧ (∀ inp, commandRequest .clrin inp = none) ∧
  ∀ s : State, ∃ t, exec .clrin s = .next t ∧ t.inLen = 0 ∧ t.inovf = false ∧ t.input = [] ∧
    t.inBuf = s.inBuf ∧ t.Completed false 0 false false ∧ s.KeepsResults t ∧ s.KeepsShell t

/-- 60_exceptions.md R202: every command except CLRIN fails with InputOverflow while INOVF = 1, whatever
IN and the hash port hold, and makes no hash request. -/
def Obligations.InputOverflowStopsEveryCommand : Prop :=
  ∀ (s : State) (i : Instr), s.inovf = true → i ≠ .clrin →
    (∃ t, exec i s = .next t ∧ s.FailedWith t .inputOverflow) ∧ s.hashRequest = none

/-- 43_control.md R195: on the engine's turn, listed or not, an illegal word completes with IllegalCommand,
changes nothing else, and makes no hash request, INOVF or not. -/
def Obligations.IllegalWordCompletesWithIllegalCommand : Prop :=
  ∀ (s : State) (r : Reject), s.eng = .run → s.EngineTurn → decode s.cur = .error r →
    s.hashRequest = none ∧
    ∃ t, step s = .next t ∧ s.takeEvent.FailedWith t .illegalCommand ∧ t.errcode = 5

/-! ### Rules of the whole machine -/

/-- 43_control.md R191, R192, R199: when the engine's complete step is enabled and its turn comes, listed or
not, it commits Exec(CUR), a function of CUR, INOVF, IN and H, and of nothing else. -/
def Obligations.CompletionCommitsExecOfCur : Prop :=
  ∀ s : State, s.Inv → s.eng = .run → s.EngineTurn → s.hashRequest = none →
    step s = .next (s.takeEvent.commit (execOutcome Config.checksumHash s.cur s.inovf s.input))

/-- 43_control.md R193: on the engine's turn, listed or not, with no hash request outstanding, a command
whose outcome is Fail(k) writes only STATUS: ERR 1, the code of k, VALID 0 and CFLAG 0. And only such an
outcome leaves ERR = 1, with the code of its own kind. -/
def Obligations.FailureWritesOnlyStatus : Prop :=
  ∀ s : State, s.Inv → s.eng = .run → s.EngineTurn →
    (∀ k, s.hashRequest = none →
      execOutcome Config.checksumHash s.cur s.inovf s.input = .fail k →
      ∃ t, step s = .next t ∧ s.takeEvent.FailedWith t k) ∧
    ∀ t, step s = .next t → t.err = true →
      ∃ k, execOutcome Config.checksumHash s.cur s.inovf s.input = .fail k ∧
        s.takeEvent.FailedWith t k

/-- 43_control.md R196: no command other than CLRIN changes IN_BUF, IN_LEN or INOVF. -/
def Obligations.InputPersistsAcrossCommands : Prop :=
  ∀ (s t : State) (i : Instr), i ≠ .clrin → exec i s = .next t → s.KeepsInput t

/-- 10_state.md R24: IN_LEN changes in three ways only: an accepted append increments it, CLRIN and reset
set it to 0. -/
def Obligations.InLenChangesInThreeWays : Prop :=
  ∀ s t : State, step s = .next t → t.inLen ≠ s.inLen →
    (s.busy = false ∧ t.inLen = s.inLen + 1 ∧ ∃ width v es, (width = .w8 ∨ width = .w32) ∧
      s.events = .host (.write width (s.cfg.base + 0x00C) v) :: es) ∨
    (s.busy = true ∧ decode s.cur = .ok .clrin ∧ t.inLen = 0 ∧ t.busy = false) ∨
    (t.inLen = 0 ∧ ∃ es, s.events = .resetInput :: es)

/-- 10_state.md R26, R27, R28: without a reset, OUT and VERSION_OUT change only when a command that
produces them completes successfully. -/
def Obligations.ResultsChangeOnlyAtSuccess : Prop :=
  ∀ s t : State, step s = .next t → (∀ es, s.events ≠ .resetInput :: es) →
    ((t.outBuf = s.outBuf ∧ t.outLen = s.outLen) ∨
      (s.busy = true ∧ t.busy = false ∧ t.done = true ∧ t.err = false ∧
        ∃ i, decode s.cur = .ok i ∧ producesOutput i = true)) ∧
    (t.versionOut = s.versionOut ∨
      (s.busy = true ∧ t.busy = false ∧ t.done = true ∧ t.err = false ∧
        ∃ i, decode s.cur = .ok i ∧ producesVersion i = true))

/-- 20_memory.md R60: while a command runs, no step changes its word or the input it was accepted with,
or the result registers, until the step that completes it or a reset. -/
def Obligations.RunningCommandSeesFixedInput : Prop :=
  ∀ s t : State, s.busy = true → step s = .next t → t.busy = true →
    t.cur = s.cur ∧ s.KeepsInput t ∧ s.KeepsResults t ∧ t.done = s.done ∧ t.err = s.err ∧
    t.errcode = s.errcode ∧ t.valid = s.valid ∧ t.cflag = s.cflag

/-- 60_exceptions.md R222: while ENG = IDLE, a step without a host access and without a reset changes no
state. -/
def Obligations.IdleStateSurvives : Prop :=
  ∀ s t : State, s.eng = .idle → step s = .next t →
    (∀ a es, s.events ≠ .host a :: es) → (∀ es, s.events ≠ .resetInput :: es) →
    t = s.withEvents s.events.tail

/-- 20_memory.md R62, 60_exceptions.md R210: once DONE = 1 and BUSY = 0, every run without a CMD write
and without a reset keeps the results and the outcome in STATUS, however long it is. -/
def Obligations.OutcomeStaysUntilTheNextCommand : Prop :=
  ∀ s : State, s.busy = false → s.done = true → (∀ e ∈ s.events, NoCommandNoReset s.cfg e) →
    ∀ n, ∃ t, Sys2Proof.core.run n s = .next t ∧ t.busy = false ∧ t.done = true ∧
      s.KeepsResults t ∧ t.err = s.err ∧ t.errcode = s.errcode ∧ t.valid = s.valid ∧
      t.cflag = s.cflag

/-- 60_exceptions.md R224: if the collaborator never answers, the engine stays in RUN on the same
command and input, for every number of steps, whatever the host does short of a reset. -/
def Obligations.UnansweredRequestStaysBusy : Prop :=
  ∀ (s : State) (f : Bytes), s.hashRequest = some f →
    (∀ e ∈ s.events, NoAnswerNoReset s.cfg e) →
    ∀ n, ∃ t, Sys2Proof.core.run n s = .next t ∧ t.busy = true ∧ t.hashRequest = some f ∧
      t.cur = s.cur ∧ s.KeepsInput t ∧ s.KeepsResults t

/-- 43_control.md R199, 30_encoding.md R90 `run`, in the schedule that `runCmd` lists (the model's choice, log
entry 4): a command issued to an idle block, polled any number of times, answered and given the engine's turn, completes with Exec of its word, the block is quiescent
(70_reset_and_hazards.md R249), and the last STATUS read is the final STATUS. -/
def Obligations.IssuedCommandCompletes : Prop :=
  ∀ (s : State) (i : Instr) (polls : Nat), i.wf = true → s.busy = false →
    s.events = runCmd s.cfg.base i polls →
    ∃ t, Sys2Proof.core.run (polls + 4) s = .next t ∧ t.Quiescent ∧ t.done = true ∧
      t.busData = t.status ∧
      t = (((s.withEvents []).accept (encode i)).commit
        (execOutcome Config.checksumHash (encode i) s.inovf s.input)).observe t.status

/-- 42_coinstring.md R167, R168 in the block: CSENC v on one input, its result taken as the input of CSDEC,
CSDEC v or CSVAL v with the same response, recovers the payload and the version; another expected
version is a VersionMismatch, and CSVAL answers false. -/
def Obligations.EncodedPayloadDecodesInTheBlock : Prop :=
  ∀ (s s' t : State) (v w : Nat) (y : Bytes), s.Ready → s'.Ready → s.inovf = false →
    s'.inovf = false → s.digest = some y → s'.digest = some y → 4 ≤ y.length → v ≤ 255 → w ≤ 255 →
    w ≠ v → exec (.csencV v) s = .next t → s'.input = t.output →
    (∀ i ∈ [Instr.csdec, .csdecV v], ∃ t', exec i s' = .next t' ∧ t'.output = s.input ∧
      t'.versionOut.toNat = v ∧ t'.err = false ∧ t'.cflag = compShape s.input) ∧
    (∃ t', exec (.csdecV w) s' = .next t' ∧ s'.FailedWith t' .versionMismatch) ∧
    (∃ t', exec (.csvalV v) s' = .next t' ∧ t'.valid = true ∧ t'.err = false) ∧
    (∃ t', exec (.csvalV w) s' = .next t' ∧ t'.valid = false ∧ t'.err = false)
end

