-- ==== Sys2Proof/Laws/Base58.lean ====
section
/-! SUPPORT. The converter's functions in terms of positional digits: the alphabet's two directions,
the digit lists, the values, and the lengths of what is produced (40_base58.md R103, R112). -/
namespace Sys2Proof.Machine

theorem length_alphabet : alphabet.length = 58 := by decide

/-- The alphabet and `digit` are inverse to each other. -/
theorem digit_alpha {x : Nat} (h : x < 58) : digit (alpha x) = some x := by
  have : ∀ y : Fin 58, digit (alpha y) = some (y : Nat) := by decide +kernel
  exact this ⟨x, h⟩

theorem digit_eq_some {c : Byte} {x : Nat} (h : digit c = some x) : x < 58 ∧ alpha x = c := by
  have : ∀ b : BitVec 8, ∀ y ∈ digit b, y < 58 ∧ alpha y = b := by decide +kernel
  exact this c x h

theorem alpha_eq_zeroSymbol {x : Nat} (h : x < 58) : alpha x = zeroSymbol ↔ x = 0 := by
  have : ∀ y : Fin 58, alpha y = zeroSymbol ↔ (y : Nat) = 0 := by decide +kernel
  exact this ⟨x, h⟩

/-- With enough fuel the remainders are the digits, least significant first. -/
theorem remainders_eq_digits {r : Nat} (hr : 1 < r) {fuel n : Nat} (h : n ≤ fuel) :
    remainders r fuel n = Nat.digits r n := by
  induction fuel generalizing n with
  | zero => simp [remainders, Nat.le_zero.1 h]
  | succ fuel ih =>
    unfold remainders
    by_cases hn : n = 0
    · simp [hn]
    · rw [if_neg hn, Nat.digits_def' hr (Nat.pos_of_ne_zero hn), ih]
      exact Nat.le_of_lt_succ ((Nat.div_lt_self (Nat.pos_of_ne_zero hn) hr).trans_le h)

theorem digitsOf_eq {r : Nat} (hr : 1 < r) (n : Nat) : digitsOf r n = (Nat.digits r n).reverse := by
  rw [digitsOf, remainders_eq_digits hr (Nat.le_refl n)]

theorem foldl_radix (r : Nat) (ds : List Nat) (n : Nat) :
    ds.foldl (fun n d => n * r + d) n = Nat.ofDigits r (ds.reverse ++ Nat.digits 0 0) + n * r ^ ds.length := by
  induction ds generalizing n with
  | nil => simp
  | cons d ds ih =>
    simp only [List.foldl_cons, ih, Nat.digits_zero, List.append_nil, List.reverse_cons,
      Nat.ofDigits_append, List.length_reverse, List.length_cons, Nat.ofDigits_singleton]
    ring

theorem radixValue_eq (r : Nat) (ds : List Nat) : radixValue r ds = Nat.ofDigits r ds.reverse := by
  simp [radixValue, foldl_radix]

theorem beValue_eq_radixValue (bs : Bytes) : beValue bs = radixValue 256 (bs.map BitVec.toNat) := by
  simp [beValue, radixValue, List.foldl_map]

/-- A digit list with digits below the radix has a value below the power of its length. -/
theorem radixValue_lt {r : Nat} (hr : 1 < r) {ds : List Nat} (h : ∀ d ∈ ds, d < r) :
    radixValue r ds < r ^ ds.length := by
  rw [radixValue_eq, ← List.length_reverse]
  exact Nat.ofDigits_lt_base_pow_length hr (by simpa using h)

theorem beValue_lt (bs : Bytes) : beValue bs < 256 ^ bs.length := by
  rw [beValue_eq_radixValue, ← List.length_map (f := BitVec.toNat) (as := bs)]
  exact radixValue_lt (by decide) fun d hd => by
    obtain ⟨b, -, rfl⟩ := List.mem_map.1 hd
    exact b.isLt

/-- The value of a number's digits is the number. -/
theorem radixValue_digitsOf {r : Nat} (hr : 1 < r) (n : Nat) : radixValue r (digitsOf r n) = n := by
  rw [radixValue_eq, digitsOf_eq hr, List.reverse_reverse, Nat.ofDigits_digits]

theorem mem_digitsOf_lt {r : Nat} (hr : 1 < r) {n d : Nat} (h : d ∈ digitsOf r n) : d < r := by
  rw [digitsOf_eq hr, List.mem_reverse] at h
  exact Nat.digits_lt_base hr h

/-- The digits of a digit list's value, where the first digit is not 0. -/
theorem digitsOf_radixValue {r : Nat} (hr : 1 < r) {ds : List Nat} (h : ∀ d ∈ ds, d < r)
    (h0 : ∀ d ∈ ds.head?, d ≠ 0) : digitsOf r (radixValue r ds) = ds := by
  rw [radixValue_eq, digitsOf_eq hr, Nat.digits_ofDigits r hr, List.reverse_reverse]
  · simpa using h
  · intro hne
    rw [List.getLast_reverse]
    exact h0 _ (List.head?_eq_some_head (by simpa using hne))

/-- A value below r ^ k has at most k digits. -/
theorem length_digitsOf_le {r : Nat} (hr : 1 < r) {n k : Nat} (h : n < r ^ k) :
    (digitsOf r n).length ≤ k := by
  rw [digitsOf_eq hr, List.length_reverse]
  exact (Nat.digits_length_le_iff hr n).2 h

/-- A list is some number of `z`s, then something that does not begin with `z`. -/
theorem exists_replicate_append {α : Type} [DecidableEq α] (z : α) (l : List α) :
    ∃ k rest, l = List.replicate k z ++ rest ∧ ∀ b ∈ rest.head?, b ≠ z := by
  induction l with
  | nil => exact ⟨0, [], by simp⟩
  | cons a l ih =>
    by_cases ha : a = z
    · obtain ⟨k, rest, hl, hr⟩ := ih
      exact ⟨k + 1, rest, by simp [ha, hl, List.replicate_succ], hr⟩
    · exact ⟨0, a :: l, by simpa using ha⟩

/-- Counting the leading `z`s in front of something that does not begin with `z`. -/
theorem leadCount_replicate_append {z : Byte} (k : Nat) {rest : Bytes}
    (h : ∀ b ∈ rest.head?, b ≠ z) : leadCount z (List.replicate k z ++ rest) = k := by
  have h1 : rest.takeWhile (fun b => b == z) = [] := by
    cases rest with
    | nil => rfl
    | cons c cs => simpa using h c (by simp)
  rw [leadCount, List.takeWhile_append_of_pos (by simp), h1]
  simp

/-- Leading `z`s, then the rest, which does not begin with `z`. -/
theorem leadCount_split (z : Byte) (bs : Bytes) :
    ∃ rest, bs = List.replicate (leadCount z bs) z ++ rest ∧ ∀ b ∈ rest.head?, b ≠ z := by
  obtain ⟨k, rest, rfl, hr⟩ := exists_replicate_append z bs
  exact ⟨rest, by rw [leadCount_replicate_append k hr], hr⟩

theorem leadCount_le (z : Byte) (bs : Bytes) : leadCount z bs ≤ bs.length :=
  (List.takeWhile_sublist _).length_le

/-- Leading zero digits do not change a value. -/
theorem radixValue_replicate_zero_append (r k : Nat) (ds : List Nat) :
    radixValue r (List.replicate k 0 ++ ds) = radixValue r ds := by
  induction k with
  | zero => simp
  | succ k ih => simpa [List.replicate_succ, radixValue] using ih

theorem digitsIn_map_alpha {ds : List Nat} (h : ∀ d ∈ ds, d < 58) :
    digitsIn (ds.map alpha) = .ok ds := by
  induction ds with
  | nil => rfl
  | cons d ds ih =>
    rw [List.forall_mem_cons] at h
    simp [digitsIn, digit_alpha h.1, ih h.2]

/-- What a decoded digit list is: digits below 58 that spell the characters. -/
theorem digitsIn_eq_ok {s : Bytes} {ds : List Nat} (h : digitsIn s = .ok ds) :
    (∀ d ∈ ds, d < 58) ∧ ds.map alpha = s := by
  induction s generalizing ds with
  | nil => cases h; simp
  | cons c s ih =>
    unfold digitsIn at h
    split at h
    · next d ds' hd hs =>
      cases h
      obtain ⟨h1, h2⟩ := digit_eq_some hd
      obtain ⟨h3, h4⟩ := ih hs
      simpa [h1, h2, h4] using h3
    · cases h

/-- The only error of `digitsIn` is InvalidCharacter (40_base58.md R120). -/
theorem digitsIn_eq_error {s : Bytes} {k : ErrKind} (h : digitsIn s = .error k) :
    k = .invalidCharacter := by
  cases s with
  | nil => cases h
  | cons c s =>
    unfold digitsIn at h
    split at h
    · cases h
    · cases h; rfl

/-- `digitsIn` fails exactly when some character is outside the alphabet (40_base58.md R111). -/
theorem digitsIn_isOk_iff (s : Bytes) : (∃ ds, digitsIn s = .ok ds) ↔ ∀ c ∈ s, (digit c).isSome := by
  induction s with
  | nil => simp [digitsIn]
  | cons c s ih =>
    rw [List.forall_mem_cons, ← ih, Option.isSome_iff_exists]
    constructor
    · rintro ⟨ds, h⟩
      unfold digitsIn at h
      split at h
      · next d ds' hd hs => exact ⟨⟨d, hd⟩, ds', hs⟩
      · cases h
    · rintro ⟨⟨d, hd⟩, ds, hds⟩
      exact ⟨d :: ds, by simp [digitsIn, hd, hds]⟩

theorem length_minBE_le {n k : Nat} (h : n < 256 ^ k) : (minBE n).length ≤ k := by
  rw [minBE, List.length_map]
  exact length_digitsOf_le (by decide) h

/-- The leading-zero bytes contribute nothing to the value. -/
theorem beValue_replicate_zero_append (k : Nat) (bs : Bytes) :
    beValue (List.replicate k 0 ++ bs) = beValue bs := by
  rw [beValue_eq_radixValue, beValue_eq_radixValue, List.map_append, List.map_replicate]
  exact radixValue_replicate_zero_append 256 k _

/-- The longest encoding: at most two characters a byte (40_base58.md R103). -/
theorem length_b58Encode_le (b : Bytes) : (b58Encode b).length ≤ 2 * b.length := by
  obtain ⟨rest, hb, -⟩ := leadCount_split 0 b
  have hlen : b.length = lz b + rest.length := by
    conv_lhs => rw [hb]
    simp [lz]
  have hv : beValue b = beValue rest := by
    conv_lhs => rw [hb]
    exact beValue_replicate_zero_append _ _
  have hlt : beValue b < 58 ^ (2 * rest.length) := by
    rw [hv, pow_mul]
    exact (beValue_lt rest).trans_le (Nat.pow_le_pow_left (by decide) _)
  have := length_digitsOf_le (r := 58) (by decide) hlt
  simp only [b58Encode, List.length_append, List.length_replicate, List.length_map]
  omega

/-- The digits of a decodable string: a 0 for each leading `'1'`, then a digit list that does not
begin with 0 (40_base58.md R112). -/
theorem digitsIn_split {s : Bytes} {ds : List Nat} (h : digitsIn s = .ok ds) :
    ∃ ds', ds = List.replicate (l1 s) 0 ++ ds' ∧ ∀ d ∈ ds'.head?, d ≠ 0 := by
  obtain ⟨hlt, rfl⟩ := digitsIn_eq_ok h
  obtain ⟨k, ds', rfl, h0⟩ := exists_replicate_append 0 ds
  refine ⟨ds', ?_, h0⟩
  rw [l1, List.map_append, List.map_replicate, show alpha 0 = zeroSymbol from rfl,
    leadCount_replicate_append k]
  intro b hb
  obtain ⟨d, hd, rfl⟩ : ∃ d ∈ ds'.head?, alpha d = b := by simpa using hb
  have hd58 := hlt d (List.mem_append_right _ (List.mem_of_mem_head? hd))
  rw [Ne, alpha_eq_zeroSymbol hd58]
  exact h0 d hd

/-- A decoding is at most as long as its string (40_base58.md R112). -/
theorem length_b58Decode_le {s b : Bytes} (h : b58Decode s = .ok b) : b.length ≤ s.length := by
  unfold b58Decode at h
  split at h
  · next ds hds =>
    cases h
    obtain ⟨hlt, hmap⟩ := digitsIn_eq_ok hds
    obtain ⟨ds', hsplit, -⟩ := digitsIn_split hds
    have hlen : s.length = l1 s + ds'.length := by
      rw [← hmap, List.length_map, hmap, hsplit]
      simp
    have hv : radixValue 58 ds < 256 ^ ds'.length := by
      rw [hsplit, radixValue_replicate_zero_append]
      refine (radixValue_lt (by decide) fun d hd => hlt d ?_).trans_le
        (Nat.pow_le_pow_left (by decide) _)
      rw [hsplit]
      exact List.mem_append_right _ hd
    have := length_minBE_le hv
    simp only [List.length_append, List.length_replicate]
    omega
  · cases h

end Sys2Proof.Machine
end

