-- ==== Sys2Proof/Laws/Framer.lean ====
section
/-! SUPPORT. The framer's and the codec's functions: what each answers, how long its results are, and
that each asks the hash at its request only (41_framer.md R135, R136, R142). -/
namespace Sys2Proof.Machine

theorem checksum_eq_ok {h : Bytes → Bytes} {f c : Bytes} :
    checksum h f = .ok c ↔ 4 ≤ (h f).length ∧ c = (h f).take 4 := by
  unfold checksum checksumLength
  split
  · next hl => constructor
               · rintro ⟨⟩
               · rintro ⟨h1, -⟩; omega
  · next hl => constructor
               · intro he; cases he; exact ⟨by omega, rfl⟩
               · rintro ⟨-, rfl⟩; rfl

theorem checksum_eq_error {h : Bytes → Bytes} {f : Bytes} {k : ErrKind} :
    checksum h f = .error k ↔ (h f).length < 4 ∧ k = .hashFault := by
  unfold checksum checksumLength
  split
  · next hl => simp [hl, eq_comm]
  · next hl => simp [hl]

theorem length_of_checksum {h : Bytes → Bytes} {f c : Bytes} (hc : checksum h f = .ok c) :
    c.length = 4 := by
  obtain ⟨h1, rfl⟩ := checksum_eq_ok.1 hc
  simp [h1]

/-- FrameBuild's result: the frame, then the digest's first four bytes (41_framer.md R135). -/
theorem frameBuild_eq_ok {h : Bytes → Bytes} {v : Byte} {p eb : Bytes} :
    frameBuild h v p = .ok eb ↔
      4 ≤ (h (frameOf v p)).length ∧ eb = frameOf v p ++ (h (frameOf v p)).take 4 := by
  unfold frameBuild
  split
  · next c hc =>
    obtain ⟨h1, rfl⟩ := checksum_eq_ok.1 hc
    simp [h1, eq_comm]
  · next k hk =>
    have := (checksum_eq_error.1 hk).1
    constructor
    · rintro ⟨⟩
    · rintro ⟨h1, -⟩; omega

/-- FrameBuild fails only with HashFault (41_framer.md R135). -/
theorem frameBuild_eq_error {h : Bytes → Bytes} {v : Byte} {p : Bytes} {k : ErrKind} :
    frameBuild h v p = .error k ↔ (h (frameOf v p)).length < 4 ∧ k = .hashFault := by
  unfold frameBuild
  split
  · next c hc =>
    have := (checksum_eq_ok.1 hc).1
    constructor
    · rintro ⟨⟩
    · rintro ⟨h1, -⟩; omega
  · next k' hk =>
    obtain ⟨h1, rfl⟩ := checksum_eq_error.1 hk
    simp [h1, eq_comm]

theorem length_frameBuild {h : Bytes → Bytes} {v : Byte} {p eb : Bytes}
    (he : frameBuild h v p = .ok eb) : eb.length = p.length + 5 := by
  obtain ⟨h1, rfl⟩ := frameBuild_eq_ok.1 he
  rw [List.length_append, List.length_take, Nat.min_eq_left h1]
  rfl

theorem framePart_append {f c : Bytes} (hc : c.length = 4) : framePart (f ++ c) = f := by
  simp [framePart, checksumLength, hc]

theorem checksumPart_append {f c : Bytes} (hc : c.length = 4) : checksumPart (f ++ c) = c := by
  simp [checksumPart, checksumLength, hc]

/-- Unframe's success: at least 5 bytes, a digest of at least 4 that begins with the checksum part, and
a frame that passes the version check (41_framer.md R136). -/
theorem unframeBytes_eq_ok {h : Bytes → Bytes} {ver : Option Byte} {eb p : Bytes} {b : Byte} :
    unframeBytes h ver eb = .ok (b, p) ↔
      5 ≤ eb.length ∧ 4 ≤ (h (framePart eb)).length ∧
        (h (framePart eb)).take 4 = checksumPart eb ∧ framePart eb = b :: p ∧ versionOk ver b = true := by
  unfold unframeBytes
  split
  · next hl => constructor
               · rintro ⟨⟩
               · rintro ⟨h1, -⟩; omega
  · next hl =>
    split
    · next k hk =>
      have := (checksum_eq_error.1 hk).1
      constructor
      · rintro ⟨⟩
      · rintro ⟨-, h1, -⟩; omega
    · next c hc =>
      obtain ⟨h1, rfl⟩ := checksum_eq_ok.1 hc
      split
      · next heq =>
        cases hf : framePart eb with
        | nil => simp [stripFrame]
        | cons b' p' =>
          rw [hf] at h1 heq
          by_cases hv : versionOk ver b' = true
          · simp only [stripFrame, hv, if_true, Except.ok.injEq, Prod.mk.injEq, List.cons.injEq]
            constructor
            · rintro ⟨rfl, rfl⟩; exact ⟨by omega, h1, heq, ⟨rfl, rfl⟩, hv⟩
            · rintro ⟨-, -, -, h2, -⟩; exact h2
          · simp only [stripFrame, hv, List.cons.injEq]
            constructor
            · rintro ⟨⟩
            · rintro ⟨-, -, -, ⟨rfl, rfl⟩, h2⟩; exact absurd h2 hv
      · next hne => constructor
                    · rintro ⟨⟩
                    · rintro ⟨-, -, h2, -⟩; exact absurd h2 hne

/-- A payload is 5 bytes shorter than what it was unframed from. -/
theorem length_unframeBytes {h : Bytes → Bytes} {ver : Option Byte} {eb p : Bytes} {b : Byte}
    (he : unframeBytes h ver eb = .ok (b, p)) : p.length + 5 = eb.length := by
  obtain ⟨h1, -, -, h2, -⟩ := unframeBytes_eq_ok.1 he
  have := congrArg List.length h2
  simp [framePart, checksumLength] at this
  omega

/-- Unframe asks the hash at its request only (41_framer.md R142). -/
theorem unframeBytes_congr {h h' : Bytes → Bytes} {ver : Option Byte} {eb : Bytes}
    (hh : ∀ f, unframeRequest eb = some f → h f = h' f) :
    unframeBytes h ver eb = unframeBytes h' ver eb := by
  unfold unframeBytes
  split
  · rfl
  · next hl =>
    have : h (framePart eb) = h' (framePart eb) := hh _ (by simp [unframeRequest, hl])
    simp only [checksum, this]

theorem frameBuild_congr {h h' : Bytes → Bytes} {v : Byte} {p : Bytes}
    (hh : ∀ f, frameRequest v p = some f → h f = h' f) : frameBuild h v p = frameBuild h' v p := by
  have : h (frameOf v p) = h' (frameOf v p) := hh _ rfl
  simp only [frameBuild, checksum, this]

theorem csEncode_congr {h h' : Bytes → Bytes} {v : Byte} {p : Bytes}
    (hh : ∀ f, frameRequest v p = some f → h f = h' f) : csEncode h v p = csEncode h' v p := by
  rw [csEncode, csEncode, frameBuild_congr hh]

theorem csDecode_congr {h h' : Bytes → Bytes} {ver : Option Byte} {s : Bytes}
    (hh : ∀ f, csDecodeRequest s = some f → h f = h' f) : csDecode h ver s = csDecode h' ver s := by
  unfold csDecode
  unfold csDecodeRequest at hh
  split
  · next eb heb =>
    rw [heb] at hh
    exact unframeBytes_congr hh
  · rfl

/-- A command asks the hash at its request only: its outcome is the same under two functions that agree
there (41_framer.md R142, 43_control.md R191). -/
theorem commandOutcome_congr {h h' : Bytes → Bytes} {i : Instr} {inp : Bytes}
    (hh : ∀ f, commandRequest i inp = some f → h f = h' f) :
    commandOutcome h i inp = commandOutcome h' i inp := by
  cases i <;> simp only [commandOutcome]
  · rw [csEncode_congr hh]
  · rw [csDecode_congr hh]
  · rw [csDecode_congr hh]
  · rw [csDecode_congr hh]
  · rw [frameBuild_congr hh]
  · rw [unframeBytes_congr hh]
  · rw [unframeBytes_congr hh]

@[simp] theorem length_flipBit (bs : Bytes) (i k : Nat) : (flipBit bs i k).length = bs.length := by
  simp [flipBit]

/-- A flip in the first part of a sequence. -/
theorem flipBit_append_left {f : Bytes} (c : Bytes) {i : Nat} (k : Nat) (h : i < f.length) :
    flipBit (f ++ c) i k = flipBit f i k ++ c := by
  induction f generalizing i with
  | nil => exact absurd h (Nat.not_lt_zero i)
  | cons b f ih =>
    cases i with
    | zero => simp [flipBit]
    | succ i =>
      have := ih (i := i) (by simpa using h)
      simpa [flipBit] using this

/-- A flip behind the first part of a sequence. -/
theorem flipBit_append_right (f c : Bytes) (i k : Nat) :
    flipBit (f ++ c) (f.length + i) k = f ++ flipBit c i k := by
  induction f with
  | nil => simp
  | cons b f ih =>
    have hi : (b :: f).length + i = (f.length + i) + 1 := by simp; omega
    rw [hi]
    simpa [flipBit] using ih

/-- A flip of a bit that is there changes the sequence. -/
theorem flipBit_ne {bs : Bytes} {i k : Nat} (hi : i < bs.length) (hk : k < 8) : flipBit bs i k ≠ bs := by
  have hb : ∀ k : Fin 8, 1#8 <<< (k : Nat) ≠ 0#8 := by decide
  intro he
  have h := congrArg (fun l : Bytes => l[i]?) he
  simp [flipBit, hi] at h
  exact hb ⟨k, hk⟩ h

end Sys2Proof.Machine
end

