-- ==== Sys2Proof/Laws/Memory.lean ====
section
/-! SUPPORT. The laws of the buffers: reading after writing, byte sequences, and the canonical form. -/
namespace Sys2Proof.Machine

@[simp] theorem Memory.read_nil (a : Nat) : Memory.read [] a = 0 := rfl

@[simp] theorem Memory.read_cons (c : Host.Cell) (m : Memory) (a : Nat) :
    Memory.read (c :: m) a = if c.1 = a then c.2 else Memory.read m a := rfl

theorem Memory.wf_cons {c : Host.Cell} {m : Memory} :
    Memory.wf (c :: m) ↔ (∀ d ∈ m, c.1 < d.1) ∧ c.2 ≠ 0 ∧ Memory.wf m := by
  simp only [Memory.wf, List.pairwise_cons, List.forall_mem_cons]
  tauto

theorem Memory.wf_nil : Memory.wf [] := by simp [Memory.wf]

/-- Below the first listed index nothing is listed. -/
theorem Memory.read_of_below {m : Memory} {a : Nat} (h : ∀ d ∈ m, a < d.1) : Memory.read m a = 0 := by
  induction m with
  | nil => rfl
  | cons c m ih =>
    have hc : a < c.1 := h c (by simp)
    rw [Memory.read_cons, if_neg (by omega)]
    exact ih fun d hd => h d (by simp [hd])

theorem Memory.read_consCell {m : Memory} {a : Nat} {b : Byte} (h : Memory.read m a = 0) (x : Nat) :
    Memory.read (Memory.consCell a b m) x = if x = a then b else Memory.read m x := by
  unfold Memory.consCell Memory.unlisted
  by_cases hb : b = 0
  · by_cases hx : x = a <;> simp [hb, hx, h]
  · rw [if_neg hb, Memory.read_cons]
    by_cases hx : x = a
    · simp [hx]
    · simp [hx, Ne.symm hx]

/-- Reading after writing, at every index. -/
theorem Memory.read_write {m : Memory} (h : m.wf) (a : Nat) (b : Byte) (x : Nat) :
    (m.write a b).read x = if x = a then b else m.read x := by
  induction m with
  | nil => exact Memory.read_consCell rfl x
  | cons c m ih =>
    obtain ⟨hlt, -, hwf⟩ := Memory.wf_cons.1 h
    unfold Memory.write
    split
    · next hac =>
      refine Memory.read_consCell (Memory.read_of_below ?_) x
      intro d hd
      rcases List.mem_cons.1 hd with rfl | hd
      · exact hac
      · exact hac.trans (hlt d hd)
    · split
      · next hac =>
        rw [Memory.read_consCell (Memory.read_of_below (hac ▸ hlt)), Memory.read_cons]
        by_cases hx : x = a
        · simp [hx]
        · rw [if_neg hx, if_neg hx, if_neg (by rw [← hac]; exact Ne.symm hx)]
      · next hac =>
        rw [Memory.read_cons, ih hwf, Memory.read_cons]
        by_cases hx : x = a
        · subst hx; simp [Ne.symm hac]
        · simp [hx]

/-- Indexes after a write: the old ones and the one written. -/
theorem Memory.mem_write {m : Memory} {a : Nat} {b : Byte} {d : Host.Cell} (h : d ∈ m.write a b) :
    d ∈ m ∨ d = (a, b) := by
  have hcell : ∀ n : Memory, d ∈ Memory.consCell a b n → d ∈ n ∨ d = (a, b) := by
    intro n hd
    unfold Memory.consCell at hd
    split at hd
    · exact .inl hd
    · exact (List.mem_cons.1 hd).symm
  induction m with
  | nil => exact hcell [] h
  | cons c m ih =>
    unfold Memory.write at h
    split at h
    · exact hcell _ h
    · split at h
      · exact (hcell _ h).imp_left (List.mem_cons_of_mem _)
      · rcases List.mem_cons.1 h with rfl | h
        · simp
        · exact (ih h).imp_left (List.mem_cons_of_mem _)

theorem Memory.wf_consCell {m : Memory} {a : Nat} (b : Byte) (h : m.wf) (ha : ∀ d ∈ m, a < d.1) :
    (Memory.consCell a b m).wf := by
  unfold Memory.consCell Memory.unlisted
  split
  · exact h
  · next hb => exact Memory.wf_cons.2 ⟨ha, hb, h⟩

/-- A write keeps the canonical form. -/
theorem Memory.wf_write {m : Memory} (h : m.wf) (a : Nat) (b : Byte) : (m.write a b).wf := by
  induction m with
  | nil => exact Memory.wf_consCell b Memory.wf_nil (by simp)
  | cons c m ih =>
    obtain ⟨hlt, hc, hwf⟩ := Memory.wf_cons.1 h
    unfold Memory.write
    split
    · next hac =>
      refine Memory.wf_consCell b h fun d hd => ?_
      rcases List.mem_cons.1 hd with rfl | hd
      · exact hac
      · exact hac.trans (hlt d hd)
    · split
      · next hac => exact Memory.wf_consCell b hwf (hac ▸ hlt)
      · next hlta hac =>
        refine Memory.wf_cons.2 ⟨fun d hd => ?_, hc, ih hwf⟩
        rcases Memory.mem_write hd with hd | rfl
        · exact hlt d hd
        · exact Nat.lt_of_le_of_ne (Nat.le_of_not_lt hlta) (Ne.symm hac)

/-- Storing a sequence keeps the canonical form. -/
theorem Memory.wf_writeBytes {m : Memory} (h : m.wf) (a : Nat) (bs : Bytes) : (m.writeBytes a bs).wf := by
  induction bs generalizing m a with
  | nil => exact h
  | cons b bs ih => exact ih (Memory.wf_write h a b) (a + 1)

/-- Reading after storing a sequence: inside it its bytes, elsewhere what was there. -/
theorem Memory.read_writeBytes {m : Memory} (h : m.wf) (a : Nat) (bs : Bytes) (x : Nat) :
    (m.writeBytes a bs).read x =
      if a ≤ x ∧ x < a + bs.length then bs.getD (x - a) 0 else m.read x := by
  induction bs generalizing m a with
  | nil => simp [Memory.writeBytes]
  | cons b bs ih =>
    rw [Memory.writeBytes, ih (Memory.wf_write h a b), Memory.read_write h]
    rcases Nat.lt_trichotomy x a with hx | rfl | hx
    · rw [if_neg (by omega), if_neg (by omega), if_neg (by simp; omega)]
    · rw [if_neg (by omega), if_pos rfl, if_pos (by simp)]
      simp
    · obtain ⟨k, rfl⟩ : ∃ k, x = a + 1 + k := ⟨x - a - 1, by omega⟩
      simp only [List.length_cons]
      have e1 : a + 1 + k - (a + 1) = k := by omega
      have e2 : a + 1 + k - a = k + 1 := by omega
      rw [e1, e2]
      by_cases hk : k < bs.length
      · rw [if_pos (by omega), if_pos (by omega)]
        simp
      · rw [if_neg (by omega), if_neg (by omega), if_neg (by omega)]

/-- Indexes after storing a sequence. -/
theorem Memory.mem_writeBytes {m : Memory} {a : Nat} {bs : Bytes} {d : Host.Cell}
    (h : d ∈ m.writeBytes a bs) : d ∈ m ∨ (a ≤ d.1 ∧ d.1 < a + bs.length) := by
  induction bs generalizing m a with
  | nil => exact .inl h
  | cons b bs ih =>
    rcases ih h with h | ⟨h1, h2⟩
    · rcases Memory.mem_write h with h | rfl
      · exact .inl h
      · exact .inr ⟨Nat.le_refl _, by simp⟩
    · exact .inr ⟨by omega, by rw [List.length_cons]; omega⟩

@[simp] theorem Memory.length_readBytes (m : Memory) (a n : Nat) : (m.readBytes a n).length = n := by
  induction n generalizing a with
  | zero => rfl
  | succ n ih => simp [Memory.readBytes, ih]

/-- A read sequence depends on its own indexes only. -/
theorem Memory.readBytes_congr {m m' : Memory} {a n : Nat}
    (h : ∀ x, a ≤ x → x < a + n → m.read x = m'.read x) : m.readBytes a n = m'.readBytes a n := by
  induction n generalizing a with
  | zero => rfl
  | succ n ih =>
    simp only [Memory.readBytes]
    rw [h a (by omega) (by omega), ih fun x h1 h2 => h x (by omega) (by omega)]

theorem Memory.getElem?_readBytes (m : Memory) (a n i : Nat) :
    (m.readBytes a n)[i]? = if i < n then some (m.read (a + i)) else none := by
  induction n generalizing a i with
  | zero => simp [Memory.readBytes]
  | succ n ih =>
    cases i with
    | zero => simp [Memory.readBytes]
    | succ i => simp [Memory.readBytes, ih, Nat.add_right_comm, Nat.add_assoc]

/-- Reading back a stored sequence. -/
theorem Memory.readBytes_writeBytes {m : Memory} (h : m.wf) (a : Nat) (bs : Bytes) :
    (m.writeBytes a bs).readBytes a bs.length = bs := by
  apply List.ext_getElem?
  intro i
  rw [Memory.getElem?_readBytes, Memory.read_writeBytes h]
  by_cases hi : i < bs.length
  · simp [hi]
  · simp [hi]

/-- Appending one byte behind a read sequence. -/
theorem Memory.readBytes_write_end {m : Memory} (h : m.wf) (n : Nat) (b : Byte) :
    (m.write n b).readBytes 0 (n + 1) = m.readBytes 0 n ++ [b] := by
  apply List.ext_getElem?
  intro i
  rw [Memory.getElem?_readBytes, Memory.read_write h]
  rcases Nat.lt_trichotomy i n with hi | rfl | hi
  · rw [List.getElem?_append_left (by simpa using hi), Memory.getElem?_readBytes]
    simp [hi, Nat.lt_succ_of_lt hi, Nat.ne_of_lt hi]
  · rw [List.getElem?_append_right (by simp)]
    simp
  · rw [List.getElem?_append_right (by simp; omega)]
    rw [if_neg (by omega)]
    simp; omega

/-- Canonical memories that read alike are equal. -/
theorem Memory.ext_of_wf {m m' : Memory} (h : m.wf) (h' : m'.wf) (heq : ∀ a, m.read a = m'.read a) :
    m = m' := by
  induction m generalizing m' with
  | nil =>
    cases m' with
    | nil => rfl
    | cons c m' =>
      obtain ⟨-, hc, -⟩ := Memory.wf_cons.1 h'
      exact absurd (by simpa using (heq c.1).symm) hc
  | cons c m ih =>
    obtain ⟨hlt, hc, hwf⟩ := Memory.wf_cons.1 h
    cases m' with
    | nil => exact absurd (by simpa using heq c.1) hc
    | cons c' m' =>
      obtain ⟨hlt', hc', hwf'⟩ := Memory.wf_cons.1 h'
      have hkey : c.1 = c'.1 := by
        rcases Nat.lt_trichotomy c.1 c'.1 with hk | hk | hk
        · have h0 : Memory.read (c' :: m') c.1 = 0 := Memory.read_of_below fun d hd => by
            rcases List.mem_cons.1 hd with rfl | hd
            · exact hk
            · exact hk.trans (hlt' d hd)
          exact absurd (by simpa [h0] using heq c.1) hc
        · exact hk
        · have h0 : Memory.read (c :: m) c'.1 = 0 := Memory.read_of_below fun d hd => by
            rcases List.mem_cons.1 hd with rfl | hd
            · exact hk
            · exact hk.trans (hlt d hd)
          exact absurd (by simpa [h0] using (heq c'.1).symm) hc'
      have hval : c.2 = c'.2 := by simpa [hkey] using heq c.1
      have hrest : m = m' := ih hwf hwf' fun a => by
        by_cases ha : c.1 = a
        · rw [Memory.read_of_below (ha ▸ hlt), Memory.read_of_below (ha ▸ hkey ▸ hlt')]
        · simpa [ha, hkey ▸ ha] using heq a
      rw [Prod.ext hkey hval, hrest]

end Sys2Proof.Machine
end

