-- ==== Sys2Proof/Laws/State.lean ====
section
/-! SUPPORT. One lemma per field of State and per update of the shared operations. -/
namespace Sys2Proof.Machine

section
variable (w : Word) (s : State)

@[simp] theorem State.accept_cfg : (s.accept w).cfg = s.cfg := rfl
@[simp] theorem State.accept_eng : (s.accept w).eng = .run := rfl
@[simp] theorem State.accept_cur : (s.accept w).cur = w := rfl
@[simp] theorem State.accept_inBuf : (s.accept w).inBuf = s.inBuf := rfl
@[simp] theorem State.accept_inLen : (s.accept w).inLen = s.inLen := rfl
@[simp] theorem State.accept_inovf : (s.accept w).inovf = s.inovf := rfl
@[simp] theorem State.accept_outBuf : (s.accept w).outBuf = s.outBuf := rfl
@[simp] theorem State.accept_outLen : (s.accept w).outLen = s.outLen := rfl
@[simp] theorem State.accept_versionOut : (s.accept w).versionOut = s.versionOut := rfl
@[simp] theorem State.accept_done : (s.accept w).done = false := rfl
@[simp] theorem State.accept_err : (s.accept w).err = false := rfl
@[simp] theorem State.accept_ovr : (s.accept w).ovr = false := rfl
@[simp] theorem State.accept_errcode : (s.accept w).errcode = 0 := rfl
@[simp] theorem State.accept_valid : (s.accept w).valid = false := rfl
@[simp] theorem State.accept_cflag : (s.accept w).cflag = false := rfl
@[simp] theorem State.accept_digest : (s.accept w).digest = none := rfl
@[simp] theorem State.accept_busData : (s.accept w).busData = s.busData := rfl
@[simp] theorem State.accept_events : (s.accept w).events = s.events := rfl
end

section
variable (s : State)

@[simp] theorem State.finish_cfg : (s.finish).cfg = s.cfg := rfl
@[simp] theorem State.finish_eng : (s.finish).eng = .idle := rfl
@[simp] theorem State.finish_cur : (s.finish).cur = s.cur := rfl
@[simp] theorem State.finish_inBuf : (s.finish).inBuf = s.inBuf := rfl
@[simp] theorem State.finish_inLen : (s.finish).inLen = s.inLen := rfl
@[simp] theorem State.finish_inovf : (s.finish).inovf = s.inovf := rfl
@[simp] theorem State.finish_outBuf : (s.finish).outBuf = s.outBuf := rfl
@[simp] theorem State.finish_outLen : (s.finish).outLen = s.outLen := rfl
@[simp] theorem State.finish_versionOut : (s.finish).versionOut = s.versionOut := rfl
@[simp] theorem State.finish_done : (s.finish).done = true := rfl
@[simp] theorem State.finish_err : (s.finish).err = false := rfl
@[simp] theorem State.finish_ovr : (s.finish).ovr = s.ovr := rfl
@[simp] theorem State.finish_errcode : (s.finish).errcode = 0 := rfl
@[simp] theorem State.finish_valid : (s.finish).valid = false := rfl
@[simp] theorem State.finish_cflag : (s.finish).cflag = false := rfl
@[simp] theorem State.finish_digest : (s.finish).digest = none := rfl
@[simp] theorem State.finish_busData : (s.finish).busData = s.busData := rfl
@[simp] theorem State.finish_events : (s.finish).events = s.events := rfl
end

section
variable (bs : Bytes) (s : State)

@[simp] theorem State.putOutput_cfg : (s.putOutput bs).cfg = s.cfg := rfl
@[simp] theorem State.putOutput_eng : (s.putOutput bs).eng = s.eng := rfl
@[simp] theorem State.putOutput_cur : (s.putOutput bs).cur = s.cur := rfl
@[simp] theorem State.putOutput_inBuf : (s.putOutput bs).inBuf = s.inBuf := rfl
@[simp] theorem State.putOutput_inLen : (s.putOutput bs).inLen = s.inLen := rfl
@[simp] theorem State.putOutput_inovf : (s.putOutput bs).inovf = s.inovf := rfl
@[simp] theorem State.putOutput_outBuf : (s.putOutput bs).outBuf = s.outBuf.writeBytes 0 bs := rfl
@[simp] theorem State.putOutput_outLen : (s.putOutput bs).outLen = BitVec.ofNat 16 bs.length := rfl
@[simp] theorem State.putOutput_versionOut : (s.putOutput bs).versionOut = s.versionOut := rfl
@[simp] theorem State.putOutput_done : (s.putOutput bs).done = s.done := rfl
@[simp] theorem State.putOutput_err : (s.putOutput bs).err = s.err := rfl
@[simp] theorem State.putOutput_ovr : (s.putOutput bs).ovr = s.ovr := rfl
@[simp] theorem State.putOutput_errcode : (s.putOutput bs).errcode = s.errcode := rfl
@[simp] theorem State.putOutput_valid : (s.putOutput bs).valid = s.valid := rfl
@[simp] theorem State.putOutput_cflag : (s.putOutput bs).cflag = s.cflag := rfl
@[simp] theorem State.putOutput_digest : (s.putOutput bs).digest = s.digest := rfl
@[simp] theorem State.putOutput_busData : (s.putOutput bs).busData = s.busData := rfl
@[simp] theorem State.putOutput_events : (s.putOutput bs).events = s.events := rfl
end

section
variable (k : ErrKind) (s : State)

@[simp] theorem State.raiseError_cfg : (s.raiseError k).cfg = s.cfg := rfl
@[simp] theorem State.raiseError_eng : (s.raiseError k).eng = .idle := rfl
@[simp] theorem State.raiseError_cur : (s.raiseError k).cur = s.cur := rfl
@[simp] theorem State.raiseError_inBuf : (s.raiseError k).inBuf = s.inBuf := rfl
@[simp] theorem State.raiseError_inLen : (s.raiseError k).inLen = s.inLen := rfl
@[simp] theorem State.raiseError_inovf : (s.raiseError k).inovf = s.inovf := rfl
@[simp] theorem State.raiseError_outBuf : (s.raiseError k).outBuf = s.outBuf := rfl
@[simp] theorem State.raiseError_outLen : (s.raiseError k).outLen = s.outLen := rfl
@[simp] theorem State.raiseError_versionOut : (s.raiseError k).versionOut = s.versionOut := rfl
@[simp] theorem State.raiseError_done : (s.raiseError k).done = true := rfl
@[simp] theorem State.raiseError_err : (s.raiseError k).err = true := rfl
@[simp] theorem State.raiseError_ovr : (s.raiseError k).ovr = s.ovr := rfl
@[simp] theorem State.raiseError_errcode : (s.raiseError k).errcode = k.code := rfl
@[simp] theorem State.raiseError_valid : (s.raiseError k).valid = false := rfl
@[simp] theorem State.raiseError_cflag : (s.raiseError k).cflag = false := rfl
@[simp] theorem State.raiseError_digest : (s.raiseError k).digest = none := rfl
@[simp] theorem State.raiseError_busData : (s.raiseError k).busData = s.busData := rfl
@[simp] theorem State.raiseError_events : (s.raiseError k).events = s.events := rfl
end

section
variable (s : State)

@[simp] theorem State.dropWrite_cfg : (s.dropWrite).cfg = s.cfg := rfl
@[simp] theorem State.dropWrite_eng : (s.dropWrite).eng = s.eng := rfl
@[simp] theorem State.dropWrite_cur : (s.dropWrite).cur = s.cur := rfl
@[simp] theorem State.dropWrite_inBuf : (s.dropWrite).inBuf = s.inBuf := rfl
@[simp] theorem State.dropWrite_inLen : (s.dropWrite).inLen = s.inLen := rfl
@[simp] theorem State.dropWrite_inovf : (s.dropWrite).inovf = s.inovf := rfl
@[simp] theorem State.dropWrite_outBuf : (s.dropWrite).outBuf = s.outBuf := rfl
@[simp] theorem State.dropWrite_outLen : (s.dropWrite).outLen = s.outLen := rfl
@[simp] theorem State.dropWrite_versionOut : (s.dropWrite).versionOut = s.versionOut := rfl
@[simp] theorem State.dropWrite_done : (s.dropWrite).done = s.done := rfl
@[simp] theorem State.dropWrite_err : (s.dropWrite).err = s.err := rfl
@[simp] theorem State.dropWrite_ovr : (s.dropWrite).ovr = true := rfl
@[simp] theorem State.dropWrite_errcode : (s.dropWrite).errcode = s.errcode := rfl
@[simp] theorem State.dropWrite_valid : (s.dropWrite).valid = s.valid := rfl
@[simp] theorem State.dropWrite_cflag : (s.dropWrite).cflag = s.cflag := rfl
@[simp] theorem State.dropWrite_digest : (s.dropWrite).digest = s.digest := rfl
@[simp] theorem State.dropWrite_busData : (s.dropWrite).busData = s.busData := rfl
@[simp] theorem State.dropWrite_events : (s.dropWrite).events = s.events := rfl
end

section
variable (b : Byte) (s : State)

@[simp] theorem State.storeInput_cfg : (s.storeInput b).cfg = s.cfg := rfl
@[simp] theorem State.storeInput_eng : (s.storeInput b).eng = s.eng := rfl
@[simp] theorem State.storeInput_cur : (s.storeInput b).cur = s.cur := rfl
@[simp] theorem State.storeInput_inBuf : (s.storeInput b).inBuf = s.inBuf.write s.inLen.toNat b := rfl
@[simp] theorem State.storeInput_inLen : (s.storeInput b).inLen = s.inLen + 1 := rfl
@[simp] theorem State.storeInput_inovf : (s.storeInput b).inovf = s.inovf := rfl
@[simp] theorem State.storeInput_outBuf : (s.storeInput b).outBuf = s.outBuf := rfl
@[simp] theorem State.storeInput_outLen : (s.storeInput b).outLen = s.outLen := rfl
@[simp] theorem State.storeInput_versionOut : (s.storeInput b).versionOut = s.versionOut := rfl
@[simp] theorem State.storeInput_done : (s.storeInput b).done = s.done := rfl
@[simp] theorem State.storeInput_err : (s.storeInput b).err = s.err := rfl
@[simp] theorem State.storeInput_ovr : (s.storeInput b).ovr = s.ovr := rfl
@[simp] theorem State.storeInput_errcode : (s.storeInput b).errcode = s.errcode := rfl
@[simp] theorem State.storeInput_valid : (s.storeInput b).valid = s.valid := rfl
@[simp] theorem State.storeInput_cflag : (s.storeInput b).cflag = s.cflag := rfl
@[simp] theorem State.storeInput_digest : (s.storeInput b).digest = s.digest := rfl
@[simp] theorem State.storeInput_busData : (s.storeInput b).busData = s.busData := rfl
@[simp] theorem State.storeInput_events : (s.storeInput b).events = s.events := rfl
end

section
variable (s : State)

@[simp] theorem State.overflowInput_cfg : (s.overflowInput).cfg = s.cfg := rfl
@[simp] theorem State.overflowInput_eng : (s.overflowInput).eng = s.eng := rfl
@[simp] theorem State.overflowInput_cur : (s.overflowInput).cur = s.cur := rfl
@[simp] theorem State.overflowInput_inBuf : (s.overflowInput).inBuf = s.inBuf := rfl
@[simp] theorem State.overflowInput_inLen : (s.overflowInput).inLen = s.inLen := rfl
@[simp] theorem State.overflowInput_inovf : (s.overflowInput).inovf = true := rfl
@[simp] theorem State.overflowInput_outBuf : (s.overflowInput).outBuf = s.outBuf := rfl
@[simp] theorem State.overflowInput_outLen : (s.overflowInput).outLen = s.outLen := rfl
@[simp] theorem State.overflowInput_versionOut : (s.overflowInput).versionOut = s.versionOut := rfl
@[simp] theorem State.overflowInput_done : (s.overflowInput).done = s.done := rfl
@[simp] theorem State.overflowInput_err : (s.overflowInput).err = s.err := rfl
@[simp] theorem State.overflowInput_ovr : (s.overflowInput).ovr = s.ovr := rfl
@[simp] theorem State.overflowInput_errcode : (s.overflowInput).errcode = s.errcode := rfl
@[simp] theorem State.overflowInput_valid : (s.overflowInput).valid = s.valid := rfl
@[simp] theorem State.overflowInput_cflag : (s.overflowInput).cflag = s.cflag := rfl
@[simp] theorem State.overflowInput_digest : (s.overflowInput).digest = s.digest := rfl
@[simp] theorem State.overflowInput_busData : (s.overflowInput).busData = s.busData := rfl
@[simp] theorem State.overflowInput_events : (s.overflowInput).events = s.events := rfl
end

section
variable (d : Word) (s : State)

@[simp] theorem State.observe_cfg : (s.observe d).cfg = s.cfg := rfl
@[simp] theorem State.observe_eng : (s.observe d).eng = s.eng := rfl
@[simp] theorem State.observe_cur : (s.observe d).cur = s.cur := rfl
@[simp] theorem State.observe_inBuf : (s.observe d).inBuf = s.inBuf := rfl
@[simp] theorem State.observe_inLen : (s.observe d).inLen = s.inLen := rfl
@[simp] theorem State.observe_inovf : (s.observe d).inovf = s.inovf := rfl
@[simp] theorem State.observe_outBuf : (s.observe d).outBuf = s.outBuf := rfl
@[simp] theorem State.observe_outLen : (s.observe d).outLen = s.outLen := rfl
@[simp] theorem State.observe_versionOut : (s.observe d).versionOut = s.versionOut := rfl
@[simp] theorem State.observe_done : (s.observe d).done = s.done := rfl
@[simp] theorem State.observe_err : (s.observe d).err = s.err := rfl
@[simp] theorem State.observe_ovr : (s.observe d).ovr = s.ovr := rfl
@[simp] theorem State.observe_errcode : (s.observe d).errcode = s.errcode := rfl
@[simp] theorem State.observe_valid : (s.observe d).valid = s.valid := rfl
@[simp] theorem State.observe_cflag : (s.observe d).cflag = s.cflag := rfl
@[simp] theorem State.observe_digest : (s.observe d).digest = s.digest := rfl
@[simp] theorem State.observe_busData : (s.observe d).busData = d := rfl
@[simp] theorem State.observe_events : (s.observe d).events = s.events := rfl
end

section
variable (y : Bytes) (s : State)

@[simp] theorem State.receiveDigest_cfg : (s.receiveDigest y).cfg = s.cfg := rfl
@[simp] theorem State.receiveDigest_eng : (s.receiveDigest y).eng = s.eng := rfl
@[simp] theorem State.receiveDigest_cur : (s.receiveDigest y).cur = s.cur := rfl
@[simp] theorem State.receiveDigest_inBuf : (s.receiveDigest y).inBuf = s.inBuf := rfl
@[simp] theorem State.receiveDigest_inLen : (s.receiveDigest y).inLen = s.inLen := rfl
@[simp] theorem State.receiveDigest_inovf : (s.receiveDigest y).inovf = s.inovf := rfl
@[simp] theorem State.receiveDigest_outBuf : (s.receiveDigest y).outBuf = s.outBuf := rfl
@[simp] theorem State.receiveDigest_outLen : (s.receiveDigest y).outLen = s.outLen := rfl
@[simp] theorem State.receiveDigest_versionOut : (s.receiveDigest y).versionOut = s.versionOut := rfl
@[simp] theorem State.receiveDigest_done : (s.receiveDigest y).done = s.done := rfl
@[simp] theorem State.receiveDigest_err : (s.receiveDigest y).err = s.err := rfl
@[simp] theorem State.receiveDigest_ovr : (s.receiveDigest y).ovr = s.ovr := rfl
@[simp] theorem State.receiveDigest_errcode : (s.receiveDigest y).errcode = s.errcode := rfl
@[simp] theorem State.receiveDigest_valid : (s.receiveDigest y).valid = s.valid := rfl
@[simp] theorem State.receiveDigest_cflag : (s.receiveDigest y).cflag = s.cflag := rfl
@[simp] theorem State.receiveDigest_digest : (s.receiveDigest y).digest = some y := rfl
@[simp] theorem State.receiveDigest_busData : (s.receiveDigest y).busData = s.busData := rfl
@[simp] theorem State.receiveDigest_events : (s.receiveDigest y).events = s.events := rfl
end

section
variable (es : List Event) (s : State)

@[simp] theorem State.withEvents_cfg : (s.withEvents es).cfg = s.cfg := rfl
@[simp] theorem State.withEvents_eng : (s.withEvents es).eng = s.eng := rfl
@[simp] theorem State.withEvents_cur : (s.withEvents es).cur = s.cur := rfl
@[simp] theorem State.withEvents_inBuf : (s.withEvents es).inBuf = s.inBuf := rfl
@[simp] theorem State.withEvents_inLen : (s.withEvents es).inLen = s.inLen := rfl
@[simp] theorem State.withEvents_inovf : (s.withEvents es).inovf = s.inovf := rfl
@[simp] theorem State.withEvents_outBuf : (s.withEvents es).outBuf = s.outBuf := rfl
@[simp] theorem State.withEvents_outLen : (s.withEvents es).outLen = s.outLen := rfl
@[simp] theorem State.withEvents_versionOut : (s.withEvents es).versionOut = s.versionOut := rfl
@[simp] theorem State.withEvents_done : (s.withEvents es).done = s.done := rfl
@[simp] theorem State.withEvents_err : (s.withEvents es).err = s.err := rfl
@[simp] theorem State.withEvents_ovr : (s.withEvents es).ovr = s.ovr := rfl
@[simp] theorem State.withEvents_errcode : (s.withEvents es).errcode = s.errcode := rfl
@[simp] theorem State.withEvents_valid : (s.withEvents es).valid = s.valid := rfl
@[simp] theorem State.withEvents_cflag : (s.withEvents es).cflag = s.cflag := rfl
@[simp] theorem State.withEvents_digest : (s.withEvents es).digest = s.digest := rfl
@[simp] theorem State.withEvents_busData : (s.withEvents es).busData = s.busData := rfl
@[simp] theorem State.withEvents_events : (s.withEvents es).events = es := rfl
end

section
variable (s : State)

@[simp] theorem State.assertReset_cfg : (s.assertReset).cfg = s.cfg := rfl
@[simp] theorem State.assertReset_eng : (s.assertReset).eng = .idle := rfl
@[simp] theorem State.assertReset_cur : (s.assertReset).cur = 0 := rfl
@[simp] theorem State.assertReset_inBuf : (s.assertReset).inBuf = [] := rfl
@[simp] theorem State.assertReset_inLen : (s.assertReset).inLen = 0 := rfl
@[simp] theorem State.assertReset_inovf : (s.assertReset).inovf = false := rfl
@[simp] theorem State.assertReset_outBuf : (s.assertReset).outBuf = [] := rfl
@[simp] theorem State.assertReset_outLen : (s.assertReset).outLen = 0 := rfl
@[simp] theorem State.assertReset_versionOut : (s.assertReset).versionOut = 0 := rfl
@[simp] theorem State.assertReset_done : (s.assertReset).done = false := rfl
@[simp] theorem State.assertReset_err : (s.assertReset).err = false := rfl
@[simp] theorem State.assertReset_ovr : (s.assertReset).ovr = false := rfl
@[simp] theorem State.assertReset_errcode : (s.assertReset).errcode = 0 := rfl
@[simp] theorem State.assertReset_valid : (s.assertReset).valid = false := rfl
@[simp] theorem State.assertReset_cflag : (s.assertReset).cflag = false := rfl
@[simp] theorem State.assertReset_digest : (s.assertReset).digest = none := rfl
@[simp] theorem State.assertReset_busData : (s.assertReset).busData = s.busData := rfl
@[simp] theorem State.assertReset_events : (s.assertReset).events = s.events := rfl
end

section
variable (s : State)

@[simp] theorem State.accept_busy (w : Word) : (s.accept w).busy = true := rfl
@[simp] theorem State.finish_busy : s.finish.busy = false := rfl
@[simp] theorem State.raiseError_busy (k : ErrKind) : (s.raiseError k).busy = false := rfl
@[simp] theorem State.putOutput_busy (bs : Bytes) : (s.putOutput bs).busy = s.busy := rfl
@[simp] theorem State.dropWrite_busy : s.dropWrite.busy = s.busy := rfl
@[simp] theorem State.storeInput_busy (b : Byte) : (s.storeInput b).busy = s.busy := rfl
@[simp] theorem State.overflowInput_busy : s.overflowInput.busy = s.busy := rfl
@[simp] theorem State.observe_busy (d : Word) : (s.observe d).busy = s.busy := rfl
@[simp] theorem State.receiveDigest_busy (y : Bytes) : (s.receiveDigest y).busy = s.busy := rfl
@[simp] theorem State.withEvents_busy (es : List Event) : (s.withEvents es).busy = s.busy := rfl
@[simp] theorem State.assertReset_busy : s.assertReset.busy = false := rfl

@[simp] theorem State.accept_input (w : Word) : (s.accept w).input = s.input := rfl
@[simp] theorem State.finish_input : s.finish.input = s.input := rfl
@[simp] theorem State.raiseError_input (k : ErrKind) : (s.raiseError k).input = s.input := rfl
@[simp] theorem State.putOutput_input (bs : Bytes) : (s.putOutput bs).input = s.input := rfl
@[simp] theorem State.dropWrite_input : s.dropWrite.input = s.input := rfl
@[simp] theorem State.overflowInput_input : s.overflowInput.input = s.input := rfl
@[simp] theorem State.observe_input (d : Word) : (s.observe d).input = s.input := rfl
@[simp] theorem State.receiveDigest_input (y : Bytes) : (s.receiveDigest y).input = s.input := rfl
@[simp] theorem State.withEvents_input (es : List Event) : (s.withEvents es).input = s.input := rfl
@[simp] theorem State.assertReset_input : s.assertReset.input = [] := rfl

@[simp] theorem State.accept_output (w : Word) : (s.accept w).output = s.output := rfl
@[simp] theorem State.finish_output : s.finish.output = s.output := rfl
@[simp] theorem State.raiseError_output (k : ErrKind) : (s.raiseError k).output = s.output := rfl
@[simp] theorem State.dropWrite_output : s.dropWrite.output = s.output := rfl
@[simp] theorem State.storeInput_output (b : Byte) : (s.storeInput b).output = s.output := rfl
@[simp] theorem State.overflowInput_output : s.overflowInput.output = s.output := rfl
@[simp] theorem State.observe_output (d : Word) : (s.observe d).output = s.output := rfl
@[simp] theorem State.receiveDigest_output (y : Bytes) : (s.receiveDigest y).output = s.output := rfl
@[simp] theorem State.withEvents_output (es : List Event) : (s.withEvents es).output = s.output := rfl
@[simp] theorem State.assertReset_output : s.assertReset.output = [] := rfl
end

end Sys2Proof.Machine
end

