-- ==== Sys2Proof/Laws/Lifecycle.lean ====
section
/-! SUPPORT. What the shared operations of a command's life can do, said once each: the commit, the
execution of a command, the engine's turn, the hash answer, an access, and one step. -/
namespace Sys2Proof.Machine

section
variable (o : CmdOutcome) (s : State)

@[simp] theorem State.commit_eng : (s.commit o).eng = .idle := by cases o <;> rfl
@[simp] theorem State.commit_done : (s.commit o).done = true := by cases o <;> rfl
@[simp] theorem State.commit_digest : (s.commit o).digest = none := by cases o <;> rfl
@[simp] theorem State.commit_cfg : (s.commit o).cfg = s.cfg := by cases o <;> rfl
@[simp] theorem State.commit_cur : (s.commit o).cur = s.cur := by cases o <;> rfl
@[simp] theorem State.commit_inBuf : (s.commit o).inBuf = s.inBuf := by cases o <;> rfl
@[simp] theorem State.commit_ovr : (s.commit o).ovr = s.ovr := by cases o <;> rfl
@[simp] theorem State.commit_busData : (s.commit o).busData = s.busData := by cases o <;> rfl
@[simp] theorem State.commit_events : (s.commit o).events = s.events := by cases o <;> rfl
@[simp] theorem State.commit_busy : (s.commit o).busy = false := by simp [State.busy]
end

/-- The input sequence a commit leaves: the same, but after CLRIN. -/
theorem State.input_commit {o : CmdOutcome} (h : o ≠ .clearIn) (s : State) :
    (s.commit o).input = s.input := by
  cases o <;> first | rfl | exact absurd rfl h

theorem State.inLen_commit {o : CmdOutcome} (h : o ≠ .clearIn) (s : State) :
    (s.commit o).inLen = s.inLen ∧ (s.commit o).inovf = s.inovf := by
  cases o <;> first | exact ⟨rfl, rfl⟩ | exact absurd rfl h

/-- The result sequence after it has been put, in a canonical buffer. -/
theorem State.output_putOutput {s : State} (hw : s.outBuf.wf) {bs : Bytes} (hl : bs.length < 65536) :
    (s.putOutput bs).output = bs := by
  unfold State.output
  rw [State.putOutput_outBuf, State.putOutput_outLen, BitVec.toNat_ofNat, Nat.mod_eq_of_lt hl]
  exact Memory.readBytes_writeBytes hw 0 bs

/-- What executing a command can do: report InputOverflow, commit an outcome that asked nothing,
commit one under the response that has arrived, or wait. -/
theorem State.runCommand_cases (request : Option Bytes) (outcome : (Bytes → Bytes) → CmdOutcome)
    (s : State) :
    (s.inovf = true ∧ s.runCommand request outcome = s.commit (.fail .inputOverflow)) ∨
    (s.inovf = false ∧ request = none ∧
      s.runCommand request outcome = s.commit (outcome fun _ => [])) ∨
    (∃ f y, s.inovf = false ∧ request = some f ∧ s.digest = some y ∧
      s.runCommand request outcome = s.commit (outcome fun _ => y)) ∨
    (∃ f, s.inovf = false ∧ request = some f ∧ s.digest = none ∧
      s.runCommand request outcome = s) := by
  unfold State.runCommand
  cases s.inovf with
  | true => exact .inl ⟨rfl, rfl⟩
  | false =>
    cases request with
    | none => exact .inr (.inl ⟨rfl, rfl, rfl⟩)
    | some f =>
      cases hd : s.digest with
      | none => exact .inr (.inr (.inr ⟨f, rfl, rfl, rfl, rfl⟩))
      | some y => exact .inr (.inr (.inl ⟨f, y, rfl, rfl, rfl, rfl⟩))

/-- Every command but CLRIN is `runCommand` at its request and its outcome (43_control.md R191). -/
theorem exec_eq_runCommand {i : Instr} (h : i ≠ .clrin) (s : State) :
    exec i s = .next (s.runCommand (commandRequest i s.input) fun hash =>
      commandOutcome hash i s.input) := by
  cases i <;> first | rfl | exact absurd rfl h

theorem exec_clrin (s : State) : exec .clrin s = .next (s.commit .clearIn) := rfl

/-- What executing a command can do, in one place: the outcome of 43_control.md R191 is committed under
any hash function that answers the command's request with the response, or, when a response is needed
and has not arrived, the engine waits. -/
theorem exec_cases (i : Instr) (s : State) :
    (∃ h : Bytes → Bytes, (∀ f y, commandRequest i s.input = some f → s.digest = some y → h f = y) ∧
      ¬(i ≠ .clrin ∧ s.inovf = false ∧ s.digest = none ∧ ∃ f, commandRequest i s.input = some f) ∧
      exec i s = .next (s.commit
        (if i = .clrin then .clearIn else if s.inovf then .fail .inputOverflow
         else commandOutcome h i s.input))) ∨
    ((i ≠ .clrin ∧ s.inovf = false ∧ s.digest = none ∧ ∃ f, commandRequest i s.input = some f) ∧
      exec i s = .next s) := by
  by_cases hi : i = .clrin
  · subst hi
    exact .inl ⟨fun _ => [], by simp [commandRequest], by simp, by simp [exec_clrin]⟩
  · rw [exec_eq_runCommand hi]
    rcases State.runCommand_cases (commandRequest i s.input)
        (fun hash => commandOutcome hash i s.input) s with
      ⟨ho, he⟩ | ⟨ho, hr, he⟩ | ⟨f, y, ho, hr, hd, he⟩ | ⟨f, ho, hr, hd, he⟩
    · exact .inl ⟨fun _ => s.digest.getD [], by simp_all, by simp [ho], by simp [he, hi, ho]⟩
    · exact .inl ⟨fun _ => [], by simp [hr], by simp [hr], by simp [he, hi, ho]⟩
    · exact .inl ⟨fun _ => y, by simp [hd], by simp [hd], by simp [he, hi, ho]⟩
    · exact .inr ⟨⟨hi, ho, hd, f, hr⟩, by rw [he]⟩

theorem State.neededRequest_eq_some {s : State} {f : Bytes} :
    s.neededRequest = some f ↔ s.eng = .run ∧ s.inovf = false ∧
      ∃ i, decode s.cur = .ok i ∧ commandRequest i s.input = some f := by
  unfold State.neededRequest State.busy
  cases he : s.eng <;> cases ho : s.inovf <;> simp
  cases hd : decode s.cur <;> simp

theorem State.hashRequest_eq_some {s : State} {f : Bytes} :
    s.hashRequest = some f ↔ s.digest = none ∧ s.neededRequest = some f := by
  unfold State.hashRequest
  cases s.digest <;> simp

/-- What the engine's turn can do: nothing when idle, a commit when no request is outstanding, or
waiting for the response. -/
theorem engineStep_cases (s : State) :
    (s.eng = .idle ∧ engineStep s = .next s) ∨
    (s.eng = .run ∧ s.hashRequest = none ∧ ∃ h : Bytes → Bytes,
      (∀ f y, s.neededRequest = some f → s.digest = some y → h f = y) ∧
      engineStep s = .next (s.commit (execOutcome h s.cur s.inovf s.input))) ∨
    (s.eng = .run ∧ (∃ f, s.hashRequest = some f) ∧ engineStep s = .next s) := by
  unfold engineStep
  cases he : s.eng with
  | idle => exact .inl ⟨rfl, rfl⟩
  | run =>
    cases hd : decode s.cur with
    | error r =>
      refine .inr (.inl ⟨rfl, ?_, fun _ => [], ?_, by simp [execOutcome, hd]⟩)
      · rw [Option.eq_none_iff_forall_ne_some]
        intro f hf
        simp [State.hashRequest_eq_some, State.neededRequest_eq_some, hd] at hf
      · simp [State.neededRequest_eq_some, hd]
    | ok i =>
      rcases exec_cases i s with ⟨h, hh, hn, hx⟩ | ⟨⟨hi, ho, hdig, f, hf⟩, hx⟩
      · refine .inr (.inl ⟨rfl, ?_, h, ?_, by simp only [hx, execOutcome, hd]⟩)
        · rw [Option.eq_none_iff_forall_ne_some]
          intro f hf
          obtain ⟨hdig, -, ho, j, hj, hf⟩ := by
            simpa only [State.hashRequest_eq_some, State.neededRequest_eq_some] using hf
          cases hd.symm.trans hj
          refine hn ⟨?_, ho, hdig, f, hf⟩
          rintro rfl
          cases hf
        · intro f y hf hy
          obtain ⟨-, -, j, hj, hf⟩ := State.neededRequest_eq_some.1 hf
          cases hd.symm.trans hj
          exact hh f y hf hy
      · exact .inr (.inr ⟨rfl, ⟨f, State.hashRequest_eq_some.2
          ⟨hdig, State.neededRequest_eq_some.2 ⟨he, ho, i, hd, hf⟩⟩⟩, hx⟩)

/-- What a hash answer can do. -/
theorem State.hashAnswer_cases (s : State) :
    s.hashAnswer = s ∨ ∃ f, s.digest = none ∧ s.neededRequest = some f ∧
      s.hashAnswer = s.receiveDigest (Config.checksumHash f) := by
  unfold State.hashAnswer State.hashRequest
  cases hd : s.digest with
  | some y => exact .inl rfl
  | none =>
    cases hr : s.neededRequest with
    | none => exact .inl rfl
    | some f => exact .inr ⟨f, rfl, rfl, rfl⟩

/-- What an append can do (20_memory.md R53). -/
theorem State.append_cases (b : Byte) (s : State) :
    (s.busy = true ∧ s.append b = s.dropWrite) ∨
    (s.busy = false ∧ s.inLen.toNat < s.cfg.capIn ∧ s.append b = s.storeInput b) ∨
    (s.busy = false ∧ s.cfg.capIn ≤ s.inLen.toNat ∧ s.append b = s.overflowInput) := by
  unfold State.append
  cases s.busy with
  | true => exact .inl ⟨rfl, rfl⟩
  | false =>
    by_cases hl : s.inLen.toNat < s.cfg.capIn
    · exact .inr (.inl ⟨rfl, hl, by simp [hl]⟩)
    · exact .inr (.inr ⟨rfl, Nat.le_of_not_lt hl, by simp [hl]⟩)

/-- What a CMD write can do (43_control.md R190, R198). -/
theorem State.writeCmd_cases (w : Word) (s : State) :
    (s.busy = true ∧ s.writeCmd w = s.dropWrite) ∨ (s.busy = false ∧ s.writeCmd w = s.accept w) := by
  unfold State.writeCmd
  cases s.busy with
  | true => exact .inl ⟨rfl, rfl⟩
  | false => exact .inr ⟨rfl, rfl⟩

/-- A write is ignored, a CMD write, or an append (20_memory.md R52 to R55). -/
theorem State.busWrite_cases (width : Width) (off : Nat) (data : Word) (s : State) :
    s.busWrite width off data = s ∨
    (width = .w32 ∧ off = 0x000 ∧ s.busWrite width off data = s.writeCmd data) ∨
    ((width = .w32 ∨ width = .w8) ∧ off = 0x00C ∧
      s.busWrite width off data = s.append (data.setWidth 8)) := by
  cases width <;> simp only [State.busWrite]
  · by_cases h : off = 0x00C <;> simp [h]
  · simp
  · by_cases h0 : off = 0x000
    · simp [h0]
    · by_cases h : off = 0x00C <;> simp [h0, h]
  · simp

/-- What an access can do to the block: nothing (an ignored write), nothing but what the host holds of
it (a read), a drop, an accept, an append, or an overflow (20_memory.md R52 to R58). -/
theorem State.performAccess_cases (a : Access) (s : State) :
    s.performAccess a = s ∨
    (∃ d, s.performAccess a = s.observe d) ∨
    (s.busy = true ∧ s.performAccess a = s.dropWrite) ∨
    (∃ w, s.busy = false ∧ s.performAccess a = s.accept w) ∨
    (∃ b, s.busy = false ∧ s.inLen.toNat < s.cfg.capIn ∧ s.performAccess a = s.storeInput b) ∨
    (s.busy = false ∧ s.cfg.capIn ≤ s.inLen.toNat ∧ s.performAccess a = s.overflowInput) := by
  cases a with
  | read width addr => exact .inr (.inl ⟨_, rfl⟩)
  | write width addr data =>
    unfold State.performAccess
    rcases s.busWrite_cases width (addr - s.cfg.base) data with h | ⟨-, -, h⟩ | ⟨-, -, h⟩
    · exact .inl h
    · simp only [h]
      rcases s.writeCmd_cases data with ⟨hb, hc⟩ | ⟨hb, hc⟩
      · exact .inr (.inr (.inl ⟨hb, hc⟩))
      · exact .inr (.inr (.inr (.inl ⟨_, hb, hc⟩)))
    · simp only [h]
      rcases s.append_cases (data.setWidth 8) with hc | hc | hc
      · exact .inr (.inr (.inl hc))
      · exact .inr (.inr (.inr (.inr (.inl ⟨_, hc⟩))))
      · exact .inr (.inr (.inr (.inr (.inr hc))))

/-- What one event can do to a state. -/
theorem performEvent_cases {e : Event} {s s' : State} (h : performEvent e s = .next s') :
    (∃ a, e = .host a ∧ s.cfg.inRegion a.address ∧ s' = s.performAccess a) ∨
    (e = .hashAnswer ∧ s' = s.hashAnswer) ∨
    (∃ y, e = .strayResponse y ∧ s' = s) ∨
    (e = .engine ∧ engineStep s = .next s') ∨
    (e = .resetInput ∧ s' = s.assertReset) := by
  cases e with
  | host a =>
    simp only [performEvent, hostStep] at h
    split at h
    · next hr => cases h; exact .inl ⟨a, rfl, hr, rfl⟩
    · cases h
  | hashAnswer => cases h; exact .inr (.inl ⟨rfl, rfl⟩)
  | strayResponse y => cases h; exact .inr (.inr (.inl ⟨y, rfl, rfl⟩))
  | engine => exact .inr (.inr (.inr (.inl ⟨rfl, h⟩)))
  | resetInput => cases h; exact .inr (.inr (.inr (.inr ⟨rfl, rfl⟩)))

/-- One step is the engine's turn, or one event on the state that no longer lists it. -/
theorem step_cases {s s' : State} (h : step s = .next s') :
    (s.events = [] ∧ engineStep s = .next s') ∨
    ∃ e es, s.events = e :: es ∧ performEvent e (s.withEvents es) = .next s' := by
  unfold step at h
  split at h
  · next hs => exact .inl ⟨hs, h⟩
  · next e es hs => exact .inr ⟨e, es, hs, h⟩

@[simp] theorem State.takeEvent_eq (s : State) : s.takeEvent = s.withEvents s.events.tail := rfl

/-- Taking no event from an empty schedule changes nothing. -/
theorem State.withEvents_nil {s : State} (h : s.events = []) : s.withEvents [] = s := by
  cases s
  cases h
  rfl

/-- A step on the engine's turn, listed or not, is the engine's step on the state without the event. -/
theorem step_of_engineTurn {s : State} (h : s.EngineTurn) : step s = engineStep s.takeEvent := by
  rcases h with h | ⟨es, h⟩
  · simp [step, h, State.withEvents_nil h]
  · simp [step, h, performEvent]

end Sys2Proof.Machine
end

