-- ==== Sys2Proof/Laws/Bus.lean ====
section
/-! SUPPORT. The laws of a bus access: one at an offset of the region, the window against the result
sequence, STATUS as a number, and the byte of a character. -/
namespace Sys2Proof.Machine

/-- A write at an offset of the region has its register's effect (20_memory.md R50). -/
theorem step_write {s : State} {width : Width} {off : Nat} {d : Word} {es : List Event}
    (ho : off < 0x2000) (he : s.events = .host (.write width (s.cfg.base + off) d) :: es) :
    step s = .next ((s.withEvents es).busWrite width off d) := by
  simp [step, he, performEvent, hostStep, Access.address, State.performAccess, Config.inRegion, ho]

/-- A read at an offset of the region leaves its value with the host (20_memory.md R50). -/
theorem step_read {s : State} {width : Width} {off : Nat} {es : List Event}
    (ho : off < 0x2000) (he : s.events = .host (.read width (s.cfg.base + off)) :: es) :
    step s = .next ((s.withEvents es).observe (s.busRead width off)) := by
  simp [step, he, performEvent, hostStep, Access.address, State.performAccess, Config.inRegion, ho]
  rfl

/-- `OutByte(i)` is the result sequence's byte, 0x00 past its end (20_memory.md R54). -/
theorem State.outByte_eq (s : State) (i : Nat) : s.outByte i = s.output.getD i 0 := by
  unfold State.outByte State.output
  rw [List.getD_eq_getElem?_getD, Memory.getElem?_readBytes]
  split <;> simp

/-- A 32-bit window read at an aligned offset (20_memory.md R54). -/
theorem State.busRead_window {off : Nat} (h1 : off % 4 = 0) (h2 : 0x1000 ≤ off) (s : State) :
    s.busRead .w32 off = s.windowWord (off - 0x1000) := by
  simp [State.busRead, h1, h2]

/-- STATUS as a number: each field at its weight (10_state.md R29). -/
theorem State.toNat_status (s : State) :
    s.status.toNat = s.busy.toNat + 2 ^ 1 * s.done.toNat + 2 ^ 2 * s.err.toNat + 2 ^ 3 * s.ovr.toNat +
      2 ^ 4 * s.errcode.toNat + 2 ^ 8 * s.valid.toNat + 2 ^ 9 * s.cflag.toNat +
      2 ^ 10 * s.inovf.toNat := by
  have bit : ∀ b : Bool, b.toNat ≤ 1 := by decide
  have := s.errcode.isLt
  have := bit s.busy
  have := bit s.done
  have := bit s.err
  have := bit s.ovr
  have := bit s.valid
  have := bit s.cflag
  have := bit s.inovf
  unfold State.status
  rw [BitVec.toNat_ofNat, Nat.mod_eq_of_lt]
  omega

theorem toNat_charByte_of_ascii {c : Char} (h : c.toNat < 128) : (charByte c).toNat = c.toNat := by
  rw [charByte, if_pos h, BitVec.toNat_ofNat, Nat.mod_eq_of_lt (by omega)]

/-- A character without an ASCII code is a byte from 0x80 on (00_scope.md R9). -/
theorem le_toNat_charByte {c : Char} (h : 128 ≤ c.toNat) : 128 ≤ (charByte c).toNat := by
  have hx : ∀ x : BitVec 7, 128 ≤ (0x80#8 ||| x.setWidth 8).toNat := by decide +kernel
  rw [charByte, if_neg (by omega)]
  exact hx _

end Sys2Proof.Machine
end

