-- ==== Sys2Proof/Laws/Decode.lean ====
section
/-! SUPPORT. The command word's fields as numbers, so that a word is determined by them, and what the
decoder answers in their terms (30_encoding.md R81, R87). -/
namespace Sys2Proof

theorem toNat_opField (w : Word) : (opField w).toNat = w.toNat % 16 := by
  simp [opField]

theorem vchkField_eq (w : Word) : vchkField w = decide (w.toNat / 16 % 2 = 1) := by
  simp [vchkField, BitVec.getLsbD, Nat.testBit_eq_decide_div_mod_eq]

theorem toNat_rsv0Field (w : Word) : (rsv0Field w).toNat = w.toNat / 32 % 8 := by
  simp [rsv0Field, Nat.shiftRight_eq_div_pow]

theorem toNat_verField (w : Word) : (verField w).toNat = w.toNat / 256 % 256 := by
  simp [verField, Nat.shiftRight_eq_div_pow]

theorem toNat_rsv1Field (w : Word) : (rsv1Field w).toNat = w.toNat / 65536 := by
  have := w.isLt
  simp [rsv1Field, Nat.shiftRight_eq_div_pow]
  omega

/-- The five fields together are the word (30_encoding.md R81). -/
theorem toNat_eq_fields (w : Word) :
    w.toNat = (opField w).toNat + 16 * (vchkField w).toNat + 32 * (rsv0Field w).toNat +
      256 * (verField w).toNat + 65536 * (rsv1Field w).toNat := by
  rw [toNat_opField, vchkField_eq, toNat_rsv0Field, toNat_verField, toNat_rsv1Field]
  have : w.toNat / 16 % 2 = 0 ∨ w.toNat / 16 % 2 = 1 := by omega
  rcases this with h | h <;> simp [h] <;> omega

/-- Two words with the same fields are the same word. -/
theorem word_ext {w w' : Word} (hop : opField w = opField w') (hc : vchkField w = vchkField w')
    (h0 : rsv0Field w = rsv0Field w') (hv : verField w = verField w')
    (h1 : rsv1Field w = rsv1Field w') : w = w' := by
  apply BitVec.eq_of_toNat_eq
  rw [toNat_eq_fields w, toNat_eq_fields w', hop, hc, h0, hv, h1]

theorem toNat_versionedWord {fixed : Word} {v : Nat} (hf : fixed.toNat < 256) (hv : v ≤ 255) :
    (versionedWord fixed v).toNat = fixed.toNat + 256 * v := by
  have h1 : (BitVec.ofNat 32 v <<< 8).toNat = v <<< 8 := by
    rw [BitVec.toNat_shiftLeft, BitVec.toNat_ofNat, Nat.mod_eq_of_lt (a := v) (by omega),
      Nat.shiftLeft_eq, Nat.mod_eq_of_lt (by omega)]
  rw [versionedWord, BitVec.toNat_or, h1, Nat.lor_comm, ← Nat.shiftLeft_add_eq_or_of_lt (by simpa using hf),
    Nat.shiftLeft_eq]
  omega

/-- The fields of a form's word: the fixed part's, and the version operand in VER (30_encoding.md R84). -/
theorem fields_versionedWord {fixed : Word} {v : Nat} (hf : fixed.toNat < 256) (hv : v ≤ 255) :
    opField (versionedWord fixed v) = opField fixed ∧
    vchkField (versionedWord fixed v) = vchkField fixed ∧
    rsv0Field (versionedWord fixed v) = rsv0Field fixed ∧
    (verField (versionedWord fixed v)).toNat = v ∧ rsv1Field (versionedWord fixed v) = 0 := by
  have h := toNat_versionedWord hf hv
  refine ⟨?_, ?_, ?_, ?_, ?_⟩
  · apply BitVec.eq_of_toNat_eq
    rw [toNat_opField, toNat_opField, h]
    omega
  · rw [vchkField_eq, vchkField_eq, h]
    congr 1
    simp only [eq_iff_iff]
    omega
  · apply BitVec.eq_of_toNat_eq
    rw [toNat_rsv0Field, toNat_rsv0Field, h]
    omega
  · rw [toNat_verField, h]
    omega
  · apply BitVec.eq_of_toNat_eq
    rw [toNat_rsv1Field, h]
    simp only [BitVec.ofNat_eq_ofNat, BitVec.toNat_ofNat]
    omega

/-- OP, VCHK and VER of each form (30_encoding.md R84). -/
def Instr.fields : Instr → BitVec 4 × Bool × Nat
  | .b58enc => (0x1, false, 0)
  | .b58dec => (0x2, false, 0)
  | .csencV v => (0x3, false, v)
  | .csdec => (0x4, false, 0)
  | .csdecV v => (0x4, true, v)
  | .csvalV v => (0x5, true, v)
  | .frameV v => (0x6, false, v)
  | .unframe => (0x7, false, 0)
  | .unframeV v => (0x7, true, v)
  | .clrin => (0x8, false, 0)

/-- What the decoder answers: a command exactly when the reserved fields are 0 and the others are the
command's (30_encoding.md R84, R87). -/
theorem decode_eq_ok {w : Word} {i : Instr} :
    decode w = .ok i ↔ rsv1Field w = 0 ∧ rsv0Field w = 0 ∧
      (opField w, vchkField w, (verField w).toNat) = i.fields := by
  have hver : (verField w).toNat = 0 ↔ verField w = 0#8 := by
    rw [← BitVec.toNat_inj]; rfl
  unfold decode
  by_cases h1 : rsv1Field w = 0#16
  · by_cases h0 : rsv0Field w = 0#3
    · rw [if_neg (by simp [h1, h0])]
      simp only [h1, h0]
      unfold decodeBare decodeVersioned decodeChecked
      have hop : opField w = BitVec.ofNat 4 (opField w).toNat := by simp
      have hlt := (opField w).isLt
      cases hc : vchkField w <;> by_cases hv : verField w = 0#8 <;>
        (rw [hop]; revert hlt; generalize (opField w).toNat = n; intro hlt;
         interval_cases n <;> cases i <;> simp [Instr.fields, hv, hver])
    · simp [h0]
  · simp [h1]

end Sys2Proof
end

