-- ==== Sys2Proof/Laws/PerInstr.lean ====
section
/-! SUPPORT. Statements made once per command: the word of a well-formed command agrees with its row of
the table of 30_encoding.md R84 on that row's mask. -/
namespace Sys2Proof

/-- VER lies outside the mask of a row with a version operand (30_encoding.md R84). -/
theorem versionedWord_and_mask {p : Word} (hp : p &&& 0xFFFF00FF#32 = p) {v : Nat} (hv : v ≤ 255) :
    versionedWord p v &&& 0xFFFF00FF#32 = p := by
  have hx : ∀ b : BitVec 8, (BitVec.ofNat 32 b.toNat <<< 8) &&& 0xFFFF00FF#32 = 0#32 := by
    decide +kernel
  have hb : v = (BitVec.ofNat 8 v).toNat := by rw [BitVec.toNat_ofNat, Nat.mod_eq_of_lt (by omega)]
  rw [versionedWord, BitVec.and_or_distrib_right, hp, hb, hx, BitVec.or_zero]

end Sys2Proof

namespace Sys2Proof.Laws.EncodingInTable

/-- A well-formed command's row is in the table, and its word matches the row. -/
def Statement (i : Instr) : Prop := i.wf = true → i.row ∈ opcodeTable ∧ i.row.Matches (encode i)

theorem of_version {i : Instr} {p : Word} {v : Nat} (hr : i.row = ⟨p, 0xFFFF00FF#32⟩)
    (he : encode i = versionedWord p v) (hw : i.wf = decide (v ≤ 255))
    (hp : p &&& 0xFFFF00FF#32 = p) (hm : (⟨p, 0xFFFF00FF#32⟩ : OpcodeRow) ∈ opcodeTable) :
    Statement i := by
  intro h
  rw [hw, decide_eq_true_iff] at h
  rw [hr]
  refine ⟨hm, ?_⟩
  show encode i &&& 0xFFFF00FF#32 = p
  rw [he]
  exact versionedWord_and_mask hp h

theorem b58enc : Statement .b58enc := fun _ => ⟨by decide, by unfold OpcodeRow.Matches; decide⟩
theorem b58dec : Statement .b58dec := fun _ => ⟨by decide, by unfold OpcodeRow.Matches; decide⟩
theorem csencV (v : Nat) : Statement (.csencV v) := of_version rfl rfl rfl (by decide) (by decide)
theorem csdec : Statement .csdec := fun _ => ⟨by decide, by unfold OpcodeRow.Matches; decide⟩
theorem csdecV (v : Nat) : Statement (.csdecV v) := of_version rfl rfl rfl (by decide) (by decide)
theorem csvalV (v : Nat) : Statement (.csvalV v) := of_version rfl rfl rfl (by decide) (by decide)
theorem frameV (v : Nat) : Statement (.frameV v) := of_version rfl rfl rfl (by decide) (by decide)
theorem unframe : Statement .unframe := fun _ => ⟨by decide, by unfold OpcodeRow.Matches; decide⟩
theorem unframeV (v : Nat) : Statement (.unframeV v) := of_version rfl rfl rfl (by decide) (by decide)
theorem clrin : Statement .clrin := fun _ => ⟨by decide, by unfold OpcodeRow.Matches; decide⟩

end Sys2Proof.Laws.EncodingInTable
end

