-- ==== Sys2Proof/Laws/Run.lean ====
section
/-! SUPPORT. Runs: what one more step does, and that a property which every step from it keeps holds
after every number of steps. -/
namespace Sys2Proof.Machine

theorem run_eq (M : Host.Core) (n : Nat) {s t : M.State} (h : M.step s = .next t) :
    M.run (n + 1) s = M.run n t := by
  simp only [Host.Core.run, h]

/-- One step, then the rest. -/
theorem run_succ (n : Nat) {s t : State} (h : step s = .next t) :
    Sys2Proof.core.run (n + 1) s = Sys2Proof.core.run n t := run_eq Sys2Proof.core n h

/-- From a property that is kept by a step which happens, every run is a run of next states. -/
theorem run_keeps {P : State → Prop} (hstep : ∀ s, P s → ∃ t, step s = .next t ∧ P t) (n : Nat)
    {s : State} (hs : P s) : ∃ t, Sys2Proof.core.run n s = .next t ∧ P t := by
  induction n generalizing s with
  | zero => exact ⟨s, rfl, hs⟩
  | succ n ih =>
    obtain ⟨t, ht, hp⟩ := hstep s hs
    obtain ⟨u, hu, hq⟩ := ih hp
    exact ⟨u, (run_succ n ht).trans hu, hq⟩

end Sys2Proof.Machine
end

