-- ==== Sys2Proof/Tests/Slice0.lean ====
section
/-! SUPPORT. The model's own tests: the check refuses ill-formed commands, the words of 30_encoding.md
R84, vectors of 95_test_vectors.md, and a witness for the hypotheses of every statement. -/
open Sys2Proof Sys2Proof.Machine

/-! ### Helpers -/

/-- A running block that holds `inp`, with the collaborator's response, if one has arrived. -/
def Tests.running (inp : Bytes) (response : Option Bytes) : State :=
  { State.reset with
    eng := .run, inBuf := Memory.writeBytes [] 0 inp, inLen := BitVec.ofNat 16 inp.length,
    digest := response }

/-- The next state, if there is one. -/
def Tests.after : Host.Outcome State Fault Refusal → Option State
  | .next s => some s
  | .fault _ => none
  | .refused _ => none

/-- STATUS, VERSION_OUT and the result sequence after a command on `inp` under a response. -/
def Tests.result (i : Instr) (inp : Bytes) (response : Option Bytes) : Option (Word × Byte × Bytes) :=
  (Tests.after (exec i (Tests.running inp response))).map fun s => (s.status, s.versionOut, s.output)

/-- An idle block after reset with events listed. -/
def Tests.idle (es : List Event) : State := State.reset.withEvents es

/-- A response of four zero bytes, and one of three (H_ZERO and H_SHORT of 95_test_vectors.md). -/
def Tests.zeros : Bytes := [0, 0, 0, 0]
def Tests.short : Bytes := [0, 0, 0]

/-- The document's payload (95_test_vectors.md W1). -/
def Tests.payload : Bytes := (hexBytes "3c176e659bea0f29a3e9bf7880c112b1b31b4dc8".toList).getD []

/-! ### The check (30_encoding.md R88: an operand outside 0 to 255 is an assembly error) -/

theorem test_wf_csencV : (Instr.csencV 256).wf = false := by decide
theorem test_wf_csdecV : (Instr.csdecV 256).wf = false := by decide
theorem test_wf_csvalV : (Instr.csvalV 256).wf = false := by decide
theorem test_wf_frameV : (Instr.frameV 256).wf = false := by decide
theorem test_wf_unframeV : (Instr.unframeV 256).wf = false := by decide
theorem test_wf_accepts_bytes : (Instr.csencV 255).wf = true ∧ (Instr.csencV 0).wf = true := by decide
theorem test_assemble_refuses : assemble (.frameV 256) = none := by decide

/-- 30_encoding.md R84's examples, R88's two notations, and its assembly error. -/
theorem test_assembleText :
    assembleText "csenc 0x80" = some 0x00008003#32 ∧ assembleText "csenc 128" = some 0x00008003#32 ∧
    assembleText "csdec 0x00" = some 0x00000014#32 ∧ assembleText "csdec" = some 0x00000004#32 ∧
    assembleText "frame 256" = none ∧ assembleText "csval" = none := by decide +kernel

/-- Table A's last column and 00_scope.md R9: a dotless i is no digit. -/
theorem test_charByte : asciiBytes "1z" = [0x31, 0x7A] ∧ 0x80 ≤ (charByte 'ı').toNat :=
  ⟨by decide, le_toNat_charByte (by decide)⟩

/-- 00_scope.md R11: first byte first; log entry 18: no byte of a text that is no hex string. -/
theorem test_hexBytes : Tests.payload.take 2 = [0x3C, 0x17] ∧ Tests.payload.length = 20 ∧
    hexBytes "3".toList = none ∧ hexBytes "3g".toList = none ∧
    hexString "0x3c17".toList = some [0x3C, 0x17] ∧ hexString "3c17".toList = some [0x3C, 0x17] := by
  decide

/-! ### Words, by the fields of 30_encoding.md R81 and R84: RSV1, VER, RSV0, VCHK, OP -/

theorem test_decode_b58enc :
    decode 0b0000000000000000_00000000_000_0_0001#32 = .ok .b58enc := by decide
theorem test_decode_b58dec :
    decode 0b0000000000000000_00000000_000_0_0010#32 = .ok .b58dec := by decide
theorem test_decode_csencV :
    decode 0b0000000000000000_10000000_000_0_0011#32 = .ok (.csencV 0x80) := by decide
theorem test_decode_csdec :
    decode 0b0000000000000000_00000000_000_0_0100#32 = .ok .csdec := by decide
theorem test_decode_csdecV :
    decode 0b0000000000000000_00000101_000_1_0100#32 = .ok (.csdecV 0x05) := by decide
theorem test_decode_csvalV :
    decode 0b0000000000000000_11111111_000_1_0101#32 = .ok (.csvalV 0xFF) := by decide
theorem test_decode_frameV :
    decode 0b0000000000000000_01101111_000_0_0110#32 = .ok (.frameV 0x6F) := by decide
theorem test_decode_unframe :
    decode 0b0000000000000000_00000000_000_0_0111#32 = .ok .unframe := by decide
theorem test_decode_unframeV :
    decode 0b0000000000000000_00000001_000_1_0111#32 = .ok (.unframeV 0x01) := by decide
theorem test_decode_clrin :
    decode 0b0000000000000000_00000000_000_0_1000#32 = .ok .clrin := by decide
/-- 95_test_vectors.md K3 to K11 and 30_encoding.md R85. -/
theorem test_decode_rejects :
    decode 0x00000000#32 = .error .illegalOpcode ∧ decode 0x0000000F#32 = .error .illegalOpcode ∧
    decode 0x00000011#32 = .error .checkNotAllowed ∧
    decode 0x00000101#32 = .error .versionNotAllowed ∧
    decode 0x00000005#32 = .error .checkRequired ∧
    decode 0x00000104#32 = .error .versionNotAllowed ∧
    decode 0x00000013#32 = .error .checkNotAllowed ∧
    decode 0x00000023#32 = .error .reservedField ∧
    decode 0x00010003#32 = .error .reservedField := by decide
theorem test_decodeTableWord : decodeTableWord 32 0x0000FF15 = some (.csvalV 0xFF) := by decide

/-! ### The commands, by the vectors of 95_test_vectors.md -/

/-- B13 -/
theorem test_b58enc_leading_zeros : Tests.result .b58enc [0x00, 0x00, 0x28, 0x7F, 0xB4, 0xCD] none =
    some (0x2, 0, asciiBytes "11233QC4") := by decide +kernel
/-- B31 -/
theorem test_b58dec_leading_ones : Tests.result .b58dec (asciiBytes "11233QC4") none =
    some (0x2, 0, [0x00, 0x00, 0x28, 0x7F, 0xB4, 0xCD]) := by decide +kernel
/-- B46 -/
theorem test_b58dec_last_character : Tests.result .b58dec (asciiBytes "abc0") none =
    some (0x16, 0, []) := by decide +kernel
/-- F10 -/
theorem test_frame : Tests.result (.frameV 0x00) [0x01, 0x02] (some Tests.zeros) =
    some (0x2, 0, [0x00, 0x01, 0x02, 0x00, 0x00, 0x00, 0x00]) := by decide +kernel
/-- F12 -/
theorem test_frame_short_digest : Tests.result (.frameV 0x00) [] (some Tests.short) =
    some (0x76, 0, []) := by decide +kernel
/-- F24, with the first four bytes of its digest -/
theorem test_unframe : Tests.result .unframe [0xFF, 0x00, 0x38, 0x91, 0x84, 0xC0]
    (some [0x38, 0x91, 0x84, 0xC0, 0x77]) = some (0x2, 0xFF, [0x00]) := by decide +kernel
/-- F26 -/
theorem test_unframe_too_short : Tests.result .unframe [0, 0, 0, 0] none =
    some (0x26, 0, []) := by decide +kernel
/-- F33 -/
theorem test_unframeV_compressed :
    Tests.result (.unframeV 0x80) (0x80 :: (List.replicate 32 0x0C ++ [0x01, 0, 0, 0, 0]))
      (some Tests.zeros) = some (0x202, 0x80, List.replicate 32 0x0C ++ [0x01]) := by decide +kernel
/-- F29 -/
theorem test_unframeV_version : Tests.result (.unframeV 0x01) [0, 0, 0, 0, 0] (some Tests.zeros) =
    some (0x46, 0, []) := by decide +kernel
/-- C1, with F1's checksum -/
theorem test_csenc_document_vector :
    Tests.result (.csencV 0x00) (Tests.payload)
      (some [0x26, 0x26, 0x81, 0x87]) =
    some (0x2, 0, asciiBytes "16UjcYNBG9GTK4uq2f7yYEbuifqCzoLMGS") := by decide +kernel
/-- C11 -/
theorem test_csenc_zero_hash : Tests.result (.csencV 0x80) [0xFF] (some Tests.zeros) =
    some (0x2, 0, asciiBytes "27EhsTcxo") := by decide +kernel
/-- D1 -/
theorem test_csdec_document_vector :
    Tests.result .csdec (asciiBytes "16UjcYNBG9GTK4uq2f7yYEbuifqCzoLMGS")
      (some [0x26, 0x26, 0x81, 0x87]) =
    some (0x2, 0, Tests.payload) := by decide +kernel
/-- D5 -/
theorem test_csdec_too_short : Tests.result .csdec (asciiBytes "1111") none =
    some (0x26, 0, []) := by decide +kernel
/-- C6 decoded under its version -/
theorem test_csdecV : Tests.result (.csdecV 0xFF) (asciiBytes "3Bz1kccLX")
    (some [0x38, 0x91, 0x84, 0xC0]) = some (0x2, 0xFF, [0x00]) := by decide +kernel
/-- D6, with the first four bytes of its digest -/
theorem test_csdecV_checksum : Tests.result (.csdecV 0x00) (asciiBytes "11111")
    (some [0x14, 0x06, 0xE0, 0x58]) = some (0x36, 0, []) := by decide +kernel
/-- D8: `csval 0x00`, and `csval 0x01` -/
theorem test_csval :
    Tests.result (.csvalV 0x00) (asciiBytes "11111") (some Tests.zeros) = some (0x102, 0, []) ∧
    Tests.result (.csvalV 0x01) (asciiBytes "11111") (some Tests.zeros) = some (0x2, 0, []) := by
  decide +kernel
/-- D11, D13 -/
theorem test_csval_reports :
    Tests.result (.csvalV 0x00) (asciiBytes "11111") (some Tests.short) = some (0x76, 0, []) ∧
    Tests.result (.csvalV 0x00) (asciiBytes "0") none = some (0x2, 0, []) := by decide +kernel
/-- K2 -/
theorem test_clrin :
    (Tests.after (exec .clrin { Tests.running [0x41] none with inovf := true })).map
      (fun s => (s.status, s.inLen)) = some (0x2, 0) := by decide

/-! ### The bus -/

/-- K14: CAPS at the defaults. -/
theorem test_caps : State.reset.busRead .w32 0x018 = 0x02100100#32 := by decide
/-- K17, K18 on a shorter result: lanes, and 0x00 past OUT_LEN. -/
theorem test_window :
    { State.reset with outBuf := [(0, 0x31), (1, 0x36), (2, 0x55), (3, 0x6A), (4, 0x47), (5, 0x53)],
                       outLen := 5 }.busRead .w32 0x1000 = 0x6A553631#32 ∧
    { State.reset with outBuf := [(4, 0x47), (5, 0x53)], outLen := 5 }.busRead .w32 0x1004 = 0x47#32 := by
  decide
/-- K23: only the low byte is appended. -/
theorem test_append_word :
    ((Tests.running [1, 2, 3] none).finish.busWrite .w32 0x00C 0xABCDEF41#32).input =
      [1, 2, 3, 0x41] := by decide
/-- 20_memory.md R55: a 64-bit write to CMD starts nothing, and a 64-bit read answers 0. -/
theorem test_other_width :
    State.reset.busWrite (.other 8) 0x000 0x8#32 = State.reset ∧
    State.reset.busRead (.other 8) 0x018 = 0#32 := by decide
/-- K21, K22: OVR. -/
theorem test_busy_writes :
    ((Tests.running [] none).busWrite .w32 0x000 0x2).status = 0x9#32 ∧
    ((Tests.running [] none).busWrite .w32 0x01C 0x2).status = 0x1#32 := by decide
/-- 95_test_vectors.md §2.3, an illegal word with INOVF = 1: STATUS 0x00000456. -/
theorem test_illegal_with_inovf :
    (Tests.after (engineStep { Tests.running [] none with inovf := true })).map State.status =
      some 0x456#32 := by decide
/-- B56: `b58enc` with INOVF = 1 at CAP_IN = 64. -/
theorem test_input_overflow :
    ({ State.reset with cfg := { capIn := 64, base := 0 }, inLen := 64 }.append 0x41).status =
      0x400#32 ∧
    (Tests.after (exec .b58enc { State.reset with inLen := 64, inovf := true, eng := .run })).map
      State.status = some 0x466#32 := by decide

/-! ### Witnesses: states and operands that meet the hypotheses of the statements -/

theorem witness_DecodeOfEncodeIsTheCommand :
    (Instr.csvalV 255).wf = true ∧ (Instr.unframeV 0).wf = true := by decide

theorem witness_DecodedCommandHasOneWord :
    decode 0x0000FF15#32 = .ok (.csvalV 255) ∧ decode 0x00000006#32 = .ok (.frameV 0) := by decide

theorem witness_LegalExactlyWhenOneRowMatches :
    decode 0x0000FF17#32 = .ok (.unframeV 255) ∧
    (⟨0x00000017#32, 0xFFFF00FF#32⟩ : OpcodeRow) ∈ opcodeTable ∧
    (⟨0x00000017#32, 0xFFFF00FF#32⟩ : OpcodeRow).Matches 0x0000FF17#32 := by
  unfold OpcodeRow.Matches
  decide

theorem witness_ResetInputGivesResetValues :
    ((Tests.running [1] none).withEvents [.resetInput]).events = [.resetInput] := rfl

/-- A state that a run reaches: B58ENC accepted on an empty input. -/
def Tests.encoding : State := State.reset.accept 0x00000001#32

theorem Tests.encoding_inv : Tests.encoding.Inv := by
  constructor <;> decide

theorem witness_EveryStepKeepsTheInvariant :
    Tests.encoding.Inv ∧ ∃ t, step Tests.encoding = .next t := ⟨Tests.encoding_inv, _, rfl⟩

/-- Inputs and words of every family, running, with the engine's turn next in both ways. -/
theorem witness_StepExecutesTheDecodedCommand :
    (∃ s : State, s.eng = .run ∧ decode s.cur = .ok .b58enc ∧ s.events = []) ∧
    (∃ s : State, s.eng = .run ∧ decode s.cur = .ok (.csdecV 255) ∧ s.events = [.engine]) :=
  ⟨⟨Tests.encoding, by decide⟩,
   ⟨(State.reset.accept 0x0000FF14#32).withEvents [.engine], by decide⟩⟩

theorem witness_PlacedCommandIsExecutedNext :
    (Instr.csencV 255).wf = true ∧ State.reset.events = [] := by decide

/-- The boundary addresses: outside on both sides, and the last one inside. -/
theorem witness_StepStopsOnlyOutsideTheRegion :
    ¬ Config.default.inRegion 0x2000 ∧ ¬ ({ Config.default with base := 0x2000 }).inRegion 0x1FFF ∧
    Config.default.inRegion 0x1FFF := by decide

theorem witness_CmdWriteIsAccepted :
    (Tests.idle [.host (.write .w32 0 0x2)]).busy = false ∧
    (Tests.idle [.host (.write .w32 0 0x2)]).events =
      [.host (.write .w32 (State.reset.cfg.base) 0x2)] := by decide

theorem witness_BusyWriteOnlySetsOvr :
    Tests.encoding.busy = true ∧
    ∀ a ∈ [Access.write .w32 0x000 0x1, .write .w32 0x00C 0x41, .write .w8 0x00C 0x41],
      ∃ w, a = .write .w32 Tests.encoding.cfg.base w ∨
        a = .write .w32 (Tests.encoding.cfg.base + 0x00C) w ∨
        a = .write .w8 (Tests.encoding.cfg.base + 0x00C) w := by
  refine ⟨by decide, fun a ha => ?_⟩
  simp only [List.mem_cons, List.not_mem_nil, or_false] at ha
  rcases ha with rfl | rfl | rfl
  · exact ⟨0x1, .inl rfl⟩
  · exact ⟨0x41, .inr (.inl rfl)⟩
  · exact ⟨0x41, .inr (.inr rfl)⟩

/-- While a command runs, one below capacity, and at capacity. -/
theorem witness_AppendExtendsInput :
    (∃ s : State, s.busy = true ∧ s.events = [.host (.write .w8 (s.cfg.base + 0x00C) 0x41)]) ∧
    (∃ s : State, s.busy = false ∧ s.events = [.host (.write .w8 (s.cfg.base + 0x00C) 0x41)] ∧
      s.inLen.toNat < s.cfg.capIn ∧ s.inBuf.wf ∧ s.inLen.toNat < 65535) ∧
    (∃ s : State, s.busy = false ∧ s.events = [.host (.write .w32 (s.cfg.base + 0x00C) 0x41)] ∧
      s.cfg.capIn ≤ s.inLen.toNat) :=
  ⟨⟨Tests.encoding.withEvents [.host (.write .w8 0x00C 0x41)], by decide⟩,
   ⟨{ Tests.idle [.host (.write .w8 0x00C 0x41)] with inLen := 255 }, by decide⟩,
   ⟨{ Tests.idle [.host (.write .w32 0x00C 0x41)] with inLen := 256 }, by decide⟩⟩

theorem witness_ReadsChangeNothing :
    (Tests.idle [.host (.read .w8 0x1FFF)]).events =
      [.host (.read .w8 (State.reset.cfg.base + 0x1FFF))] ∧ 0x1FFF < 0x2000 := by decide

theorem witness_RegisterReadsAreTheMap : ({ capIn := 2040, base := 0x2000 } : Config).Legal := by
  decide

/-- Each way an access is not admitted, at a boundary, and accesses that are. -/
theorem witness_UnsupportedAccessIsRazWi :
    RazWi false .w16 0x004 ∧ RazWi true (.other 8) 0x000 ∧ RazWi false .w32 0x1FFD ∧ RazWi false .w8 0xFFF ∧ RazWi true .w8 0x00D ∧
    RazWi false .w32 0x01C ∧ RazWi true .w32 0xFFC ∧ RazWi true .w32 0x1000 ∧
    ¬ RazWi false .w8 0x1000 ∧ ¬ RazWi false .w32 0x018 ∧ ¬ RazWi true .w8 0x00C := by
  simp [RazWi]

theorem witness_WindowReadsReturnTheResult :
    4095 < 4096 ∧ 3 < 4 ∧ 4095 = 4 * 1023 + 3 ∧
    State.reset.outLen.toNat ≤ State.reset.cfg.capOut ∧ State.reset.cfg.capOut ≤ 528 ∧
    (Tests.idle [.host (.write .w32 0x1FFC 0x1)]).events =
      [.host (.write .w32 (State.reset.cfg.base + (0x1000 + 0xFFC)) 0x1)] := by decide

/-! The converter's statements: a value, strings in and outside the alphabet, configurations. -/

theorem witness_MinBeIsShortest : beValue [0x00, 0x01, 0x00] = 256 := by decide

/-- The bound is met by three bytes at five characters; B9 and its inverse in the block. -/
theorem witness_Base58RoundTrip :
    256 ^ ([0x00, 0xFF, 0xFF] : Bytes).length ≤ 58 ^ 5 ∧
    (Tests.running [0xFF] none).Ready ∧ (Tests.running (asciiBytes "5Q") none).Ready ∧
    ∃ t, exec .b58enc (Tests.running [0xFF] none) = .next t ∧
      (Tests.running (asciiBytes "5Q") none).input = t.output :=
  ⟨by decide, by decide, by decide, _, rfl, by decide +kernel⟩

theorem witness_Base58InverseOnAlphabetStrings :
    (∀ c ∈ asciiBytes "11zz", c ∈ alphabet) ∧ b58Encode [0x00, 0x3A] = asciiBytes "121" ∧
    b58Decode (asciiBytes "121") = .ok [0x00, 0x3A] := by decide +kernel

theorem witness_AlphabetIsTableA :
    (∃ c ∈ "1ı".toList, 128 ≤ c.toNat) ∧ 'z'.toNat < 128 := ⟨⟨'ı', by simp, by decide⟩, by decide⟩

theorem witness_LeadingZerosArePreserved : b58Decode (asciiBytes "121") = .ok [0x00, 0x3A] ∧
    digitsIn (asciiBytes "121") = .ok [0, 1, 0] := by decide +kernel

theorem witness_DecodeFailsOnlyOnInvalidCharacters :
    b58Decode [0x31, 0x80] = .error .invalidCharacter := by decide

theorem witness_ConversionOutputsFit :
    ({ capIn := 64, base := 0 } : Config).Legal ∧ (List.replicate 64 (0xFF : Byte)).length ≤ 64 ∧
    b58Decode (asciiBytes "zzzz") = .ok [0xAC, 0xAD, 0x0F] ∧
    csEncode (fun _ => Tests.zeros) 0x80 [0xFF] = .ok (asciiBytes "27EhsTcxo") := by decide +kernel

/-- 95_test_vectors.md E7, E8, and a string without an upper-case letter. -/
theorem witness_CaseIsSignificant :
    (∃ b, b58Decode (asciiBytes "1Wh4bh") = .ok b) ∧
    (∃ c ∈ asciiBytes "1Wh4bh", isUpper c = true) ∧
    0x6C ∈ (asciiBytes "3Bz1kccLX").map lowerCase ∧
    (∃ b, b58Decode (asciiBytes "21") = .ok b) ∧ (∀ c ∈ asciiBytes "21", isUpper c = false) := by
  refine ⟨⟨b58Decode (asciiBytes "1Wh4bh") |>.toOption.getD [], by decide +kernel⟩, by decide,
    by decide, ⟨[0x3A], by decide +kernel⟩, by decide⟩

/-! The framer's and the codec's statements. -/

theorem witness_UnframeFollowsTheStepOrder :
    ([0, 0, 0, 0] : Bytes).length < 5 ∧
    ([0x80, 0xFF, 0, 0, 0, 0] : Bytes) = 0x80 :: [0xFF] ++ Tests.zeros ∧ Tests.zeros.length = 4 ∧
    Tests.short.length < 4 ∧ Tests.zeros.take 4 = Tests.zeros ∧
    ([1, 0, 0, 0] : Bytes).take 4 ≠ Tests.zeros ∧ (0x80 : Byte) ≠ 0x00 := by decide

theorem witness_BuiltFrameVerifies :
    frameBuild (fun _ => Tests.zeros) 0x80 [0xFF] = .ok [0x80, 0xFF, 0, 0, 0, 0] := by decide

/-- A hash with the property `H_detects_flip`: four bytes, the first the exclusive or of all bytes. -/
def Tests.xorHash (bs : Bytes) : Bytes := bs.foldr (fun b x => b ^^^ x) 0 :: [0, 0, 0]

theorem Tests.foldr_flipBit {bs : Bytes} {i : Nat} (k : Nat) (h : i < bs.length) :
    (flipBit bs i k).foldr (fun b x => b ^^^ x) 0 =
      (1#8 <<< k) ^^^ bs.foldr (fun b x => b ^^^ x) 0 := by
  induction bs generalizing i with
  | nil => exact absurd h (Nat.not_lt_zero i)
  | cons b bs ih =>
    cases i with
    | zero =>
      simp only [flipBit, List.modify_zero_cons, List.foldr_cons]
      rw [BitVec.xor_comm b, BitVec.xor_assoc]
    | succ i =>
      have h' : i < bs.length := by simpa using h
      have := ih h'
      simp only [flipBit, List.modify_succ_cons, List.foldr_cons] at this ⊢
      rw [this, ← BitVec.xor_assoc, BitVec.xor_comm b, BitVec.xor_assoc]

theorem witness_HDetectsFlip : HDetectsFlip Tests.xorHash := by
  have hx : ∀ (k : Fin 8) (x : Byte), (1#8 <<< (k : Nat)) ^^^ x ≠ x := by decide +kernel
  intro f i k hi hk he
  simp only [Tests.xorHash, checksumLength, List.take_succ_cons, List.cons.injEq, and_true,
    Tests.foldr_flipBit k hi] at he
  exact hx ⟨k, hk⟩ _ he

/-- A change in the last byte, and one in the first, of F11's frame; the frame encoded (C11) and under the
hash above; a flip in the last frame byte and in the first checksum byte. -/
theorem witness_ChecksumByteFlipIsDetected :
    frameBuild (fun _ => Tests.zeros) 0x80 [0xFF] = .ok [0x80, 0xFF, 0, 0, 0, 0] ∧
    framePart [0x80, 0xFF, 0, 0, 0, 1] = framePart [0x80, 0xFF, 0, 0, 0, 0] ∧
    ([0x80, 0xFF, 0, 0, 0, 1] : Bytes) ≠ [0x80, 0xFF, 0, 0, 0, 0] ∧
    framePart [0x81, 0xFF, 0, 0, 0, 0] ≠ framePart [0x80, 0xFF, 0, 0, 0, 0] ∧
    4 ≤ (Tests.xorHash (framePart [0x81, 0xFF, 0, 0, 0, 0])).length ∧
    csEncode (fun _ => Tests.zeros) 0x80 [0xFF] = .ok (asciiBytes "27EhsTcxo") ∧
    (csEncode Tests.xorHash 0x80 [0xFF]).isOk = true ∧
    flipBit [0x80, 0xFF, 0, 0, 0, 0] 1 7 = [0x80, 0x7F, 0, 0, 0, 0] ∧ 1 < 6 - 4 ∧
    flipBit [0x80, 0xFF, 0, 0, 0, 0] 2 0 = [0x80, 0xFF, 1, 0, 0, 0] ∧ 6 - 4 ≤ 2 := by decide +kernel

/-- 95_test_vectors.md E4 on its EncodedBytes: bit 0 of byte 21 flipped, and the re-encoded string. -/
theorem test_flip_checksum_byte :
    b58Encode (flipBit (0x00 :: (Tests.payload ++ [0x26, 0x26, 0x81, 0x87])) 21 0) =
      asciiBytes "16UjcYNBG9GTK4uq2f7yYEbuifqCzppLYn" := by decide +kernel

theorem witness_CodecRoundTrip :
    csEncode (fun _ => Tests.zeros) 0x00 [0x01, 0x02] = .ok (asciiBytes "1W7G99pB") ∧
    (0x01 : Byte) ≠ 0x00 ∧ 256 ^ (([0x01, 0x02] : Bytes).length + 5) ≤ 58 ^ 10 ∧
    (Tests.running [] (some Tests.zeros)).Ready ∧
    (Tests.running (asciiBytes "11111") (some Tests.zeros)).Ready ∧
    ∃ t, exec (.csencV 0) (Tests.running [] (some Tests.zeros)) = .next t ∧
      (Tests.running (asciiBytes "11111") (some Tests.zeros)).input = t.output :=
  ⟨by decide +kernel, by decide, by decide, by decide, by decide, _, rfl, by decide +kernel⟩

theorem witness_WifShape :
    (List.replicate 32 (0x0C : Byte)).length = 32 ∧ 4 ≤ Tests.zeros.length := by decide

theorem witness_LowerCasedStringIsNeverTooShort :
    csDecode (fun _ => Tests.zeros) none (asciiBytes "1W7G99pB") = .ok (0x00, [0x01, 0x02]) := by
  decide +kernel

theorem witness_CommandHashRequests :
    ([0, 0, 0, 0] : Bytes).length < 5 ∧ 5 ≤ ([0, 0, 0, 0, 0] : Bytes).length ∧
    b58Decode (asciiBytes "0") = .error .invalidCharacter ∧
    b58Decode (asciiBytes "1111") = .ok [0, 0, 0, 0] ∧
    b58Decode (asciiBytes "11111") = .ok [0, 0, 0, 0, 0] ∧
    (Tests.running [] (some Tests.zeros)).digest = some Tests.zeros := by decide +kernel

/-- A FRAME that waits for its response: the request is version 0x80 and the payload 0xFF. -/
def Tests.waiting (es : List Event) : State :=
  { Tests.running [0xFF] none with cur := 0x00008006#32, events := es }

theorem witness_CollaboratorAnswersWithH :
    (Tests.waiting [.hashAnswer]).hashRequest = some [0x80, 0xFF] ∧
    (Tests.idle [.hashAnswer]).hashRequest = none := by decide

/-! The commands' statements: a state that is ready, holds an input, and holds a response or none. -/

theorem witness_B58encWritesTheEncoding :
    (Tests.running [0x00, 0x3A] none).Ready ∧ (Tests.running [0x00, 0x3A] none).inovf = false := by
  decide

theorem witness_B58decWritesTheDecoding :
    (Tests.running (asciiBytes "121") none).Ready ∧
    (∃ b, b58Decode (Tests.running (asciiBytes "121") none).input = .ok b) ∧
    (∃ c ∈ (Tests.running (asciiBytes "0") none).input, c ∉ alphabet) :=
  ⟨by decide, ⟨[0x00, 0x3A], by decide +kernel⟩, by decide⟩

/-- A ready block with a good response and one with a short response. -/
theorem witness_FrameAppendsTheChecksum :
    (∀ y ∈ [Tests.zeros, Tests.short], (Tests.running [0xFF] (some y)).Ready ∧
      (Tests.running [0xFF] (some y)).inovf = false ∧ (Tests.running [0xFF] (some y)).digest = some y) ∧
    4 ≤ Tests.zeros.length ∧ Tests.short.length < 4 := by decide

theorem witness_CsencWritesTheEncodedFrame :
    (∀ y ∈ [Tests.zeros, Tests.short], (Tests.running [] (some y)).Ready ∧
      (Tests.running [] (some y)).inovf = false ∧ (Tests.running [] (some y)).digest = some y) ∧
    4 ≤ Tests.zeros.length ∧ Tests.short.length < 4 := by decide

/-- One response for each clause: short, wrong, and right, the last under two expected versions. -/
theorem witness_UnframeStripsAndVerifies :
    (∀ y ∈ [Tests.short, [1, 0, 0, 0], Tests.zeros],
      (Tests.running [0x80, 0xFF, 0, 0, 0, 0] (some y)).Ready ∧
      (Tests.running [0x80, 0xFF, 0, 0, 0, 0] (some y)).inovf = false ∧
      (Tests.running [0x80, 0xFF, 0, 0, 0, 0] (some y)).input = 0x80 :: [0xFF] ++ Tests.zeros ∧
      (Tests.running [0x80, 0xFF, 0, 0, 0, 0] (some y)).digest = some y) ∧
    Tests.zeros.length = 4 ∧ Tests.short.length < 4 ∧
    ([1, 0, 0, 0] : Bytes).take 4 ≠ Tests.zeros ∧ Tests.zeros.take 4 = Tests.zeros ∧
    (0x80 : Byte) = versionByte 0x80 ∧ (0x80 : Byte) ≠ versionByte 0x81 := by decide

theorem witness_CsdecStripsAndVerifies :
    (∀ y ∈ [Tests.short, [1, 0, 0, 0], Tests.zeros],
      (Tests.running (asciiBytes "27EhsTcxo") (some y)).Ready ∧
      (Tests.running (asciiBytes "27EhsTcxo") (some y)).inovf = false ∧
      b58Decode (Tests.running (asciiBytes "27EhsTcxo") (some y)).input =
        .ok (0x80 :: [0xFF] ++ Tests.zeros) ∧
      (Tests.running (asciiBytes "27EhsTcxo") (some y)).digest = some y) ∧
    Tests.zeros.length = 4 ∧ Tests.short.length < 4 ∧
    ([1, 0, 0, 0] : Bytes).take 4 ≠ Tests.zeros ∧ Tests.zeros.take 4 = Tests.zeros ∧
    (0x80 : Byte) = versionByte 0x80 ∧ (0x80 : Byte) ≠ versionByte 0x81 := by decide +kernel

theorem witness_DecodeFailsBeforeTheHash :
    (∃ c ∈ (Tests.running (asciiBytes "0") none).input, c ∉ alphabet) ∧
    b58Decode (Tests.running (asciiBytes "1111") none).input = .ok [0, 0, 0, 0] ∧
    (Tests.running [0, 0, 0, 0] none).inLen.toNat < 5 := by decide +kernel

/-- CSVAL: a bad character, four bytes, and the decodable string above under each response. -/
theorem witness_CsvalFoldsDecodeFailures :
    (Tests.running (asciiBytes "0") none).inovf = false ∧
    (∃ c ∈ (Tests.running (asciiBytes "0") none).input, c ∉ alphabet) ∧
    (∃ eb, b58Decode (Tests.running (asciiBytes "1111") none).input = .ok eb ∧ eb.length < 5) ∧
    (∀ y ∈ [Tests.short, Tests.zeros],
      (Tests.running (asciiBytes "27EhsTcxo") (some y)).inovf = false ∧
      b58Decode (Tests.running (asciiBytes "27EhsTcxo") (some y)).input =
        .ok (0x80 :: [0xFF] ++ Tests.zeros) ∧
      (Tests.running (asciiBytes "27EhsTcxo") (some y)).digest = some y) :=
  ⟨rfl, by decide, ⟨[0, 0, 0, 0], by decide +kernel⟩, by decide +kernel⟩

theorem witness_InputOverflowStopsEveryCommand :
    ({ Tests.encoding with inovf := true }).inovf = true ∧ Instr.csdec ≠ .clrin := by decide

/-- OP 0 is illegal; a running block whose word it is, with the engine's turn unlisted and listed. -/
theorem witness_IllegalWordCompletesWithIllegalCommand :
    ∀ es ∈ [[], [Event.engine, .hashAnswer]],
      ((Tests.running [] none).withEvents es).eng = .run ∧
      ((Tests.running [] none).withEvents es).EngineTurn ∧
      decode ((Tests.running [] none).withEvents es).cur = .error .illegalOpcode := by
  intro es h
  simp only [List.mem_cons, List.not_mem_nil, or_false] at h
  rcases h with rfl | rfl
  · exact ⟨by decide, .inl rfl, by decide⟩
  · exact ⟨by decide, .inr ⟨_, rfl⟩, by decide⟩

/-! The whole machine's statements. -/

/-- The engine's turn, unlisted and listed. -/
theorem witness_CompletionCommitsExecOfCur :
    (Tests.encoding.Inv ∧ Tests.encoding.eng = .run ∧ Tests.encoding.EngineTurn ∧
      Tests.encoding.hashRequest = none) ∧
    ((Tests.encoding.withEvents [.engine]).Inv ∧ (Tests.encoding.withEvents [.engine]).EngineTurn ∧
      (Tests.encoding.withEvents [.engine]).hashRequest = none) :=
  ⟨⟨Tests.encoding_inv, by decide, .inl rfl, by decide⟩,
   ⟨by constructor <;> decide, .inr ⟨_, rfl⟩, by decide⟩⟩

/-- An illegal word accepted: its completion fails. -/
def Tests.illegal : State := State.reset.accept 0x00000009#32

theorem witness_FailureWritesOnlyStatus :
    (Tests.illegal.hashRequest = none ∧ execOutcome Config.checksumHash Tests.illegal.cur
      Tests.illegal.inovf Tests.illegal.input = .fail .illegalCommand) ∧
    (Tests.illegal.Inv ∧ Tests.illegal.eng = .run ∧ Tests.illegal.EngineTurn ∧
      ∃ t, step Tests.illegal = .next t ∧ t.err = true) ∧
    ((Tests.illegal.withEvents [.engine]).Inv ∧ (Tests.illegal.withEvents [.engine]).EngineTurn ∧
      ∃ t, step (Tests.illegal.withEvents [.engine]) = .next t ∧ t.err = true) :=
  ⟨⟨by decide, rfl⟩, ⟨by constructor <;> decide, by decide, .inl rfl, _, rfl, by decide⟩,
   ⟨by constructor <;> decide, .inr ⟨_, rfl⟩, _, rfl, by decide⟩⟩

theorem witness_InputPersistsAcrossCommands :
    Instr.b58enc ≠ .clrin ∧ ∃ t, exec .b58enc (Tests.running [0x00] none) = .next t :=
  ⟨by decide, _, rfl⟩

/-- Each way IN_LEN changes: an append, CLRIN, reset. -/
theorem witness_InLenChangesInThreeWays :
    (∃ t, step (Tests.idle [.host (.write .w8 0x00C 0x41)]) = .next t ∧ t.inLen ≠ 0) ∧
    (∃ t, step { Tests.running [0x41] none with cur := 0x00000008#32 } = .next t ∧ t.inLen ≠ 1) ∧
    (∃ t, step ((Tests.running [0x41] none).withEvents [.resetInput]) = .next t ∧ t.inLen ≠ 1) :=
  ⟨⟨_, rfl, by decide⟩, ⟨_, rfl, by decide⟩, ⟨_, rfl, by decide⟩⟩

theorem witness_ResultsChangeOnlyAtSuccess :
    (∃ t, step { Tests.running [0x41] none with cur := 0x00000001#32 } = .next t) ∧
    ∀ es, ({ Tests.running [0x41] none with cur := 0x00000001#32 }).events ≠ .resetInput :: es :=
  ⟨⟨_, rfl⟩, by simp [Tests.running, State.reset, State.resetOf]⟩

/-- A dropped write while the command runs. -/
theorem witness_RunningCommandSeesFixedInput :
    Tests.encoding.busy = true ∧
    ∃ t, step (Tests.encoding.withEvents [.host (.write .w32 0x000 0x2)]) = .next t ∧ t.busy = true :=
  ⟨by decide, _, rfl, by decide⟩

theorem witness_IdleStateSurvives :
    (Tests.idle [.strayResponse [1]]).eng = .idle ∧
    (∃ t, step (Tests.idle [.strayResponse [1]]) = .next t) ∧
    (∀ a es, (Tests.idle [.strayResponse [1]]).events ≠ .host a :: es) ∧
    (∀ es, (Tests.idle [.strayResponse [1]]).events ≠ .resetInput :: es) :=
  ⟨rfl, ⟨_, rfl⟩, by simp [Tests.idle], by simp [Tests.idle]⟩

/-- A completed state, and events of each kind the statement admits. -/
theorem witness_OutcomeStaysUntilTheNextCommand :
    Tests.illegal.finish.busy = false ∧ Tests.illegal.finish.done = true ∧
    ∀ e ∈ [Event.host (.write .w8 0x00C 0x41), .host (.read .w32 0x004), .engine, .hashAnswer,
      .strayResponse []], NoCommandNoReset Tests.illegal.finish.cfg e := by
  refine ⟨by decide, by decide, ?_⟩
  simp [NoCommandNoReset, Access.address, Tests.illegal, State.reset, State.resetOf, Config.default,
    Config.inRegion]

theorem witness_UnansweredRequestStaysBusy :
    (Tests.waiting [.engine, .host (.read .w32 0x004), .host (.write .w32 0x000 0x1)]).hashRequest =
      some [0x80, 0xFF] ∧
    ∀ e ∈ [Event.engine, .host (.read .w32 0x004), .host (.write .w32 0x000 0x1)],
      NoAnswerNoReset (Tests.waiting []).cfg e := by
  refine ⟨by decide, ?_⟩
  simp [NoAnswerNoReset, Access.address, Tests.waiting, Tests.running, State.reset, State.resetOf,
    Config.default, Config.inRegion]

theorem witness_IssuedCommandCompletes :
    (Instr.csencV 255).wf = true ∧
    (Tests.idle (runCmd State.reset.cfg.base (.csencV 255) 2)).busy = false ∧
    (Tests.idle (runCmd State.reset.cfg.base (.csencV 255) 2)).events =
      runCmd (Tests.idle []).cfg.base (.csencV 255) 2 := by decide

/-- CSENC 0x00 on the empty payload (C9), and the block that holds its result. -/
theorem witness_EncodedPayloadDecodesInTheBlock :
    (Tests.running [] (some Tests.zeros)).Ready ∧
    (Tests.running (asciiBytes "11111") (some Tests.zeros)).Ready ∧
    ∃ t, exec (.csencV 0) (Tests.running [] (some Tests.zeros)) = .next t ∧
      (Tests.running (asciiBytes "11111") (some Tests.zeros)).input = t.output :=
  ⟨by decide, by decide, _, rfl, by decide +kernel⟩
end

section
/-! PROOFS. The host's accesses and the running command (20_memory.md R52 to R60): which accesses are
ignored or read 0, the byte lanes of the window, the append, and what a step of a running command can do. -/
namespace Sys2Proof.Machine

/-! ### Accesses that are ignored or read 0 -/

/-- A write that is neither the CMD write nor an IN_DATA write is ignored (20_memory.md R52, R55). -/
theorem State.busWrite_eq_self {width : Width} {off : Nat} (hcmd : ¬(width = .w32 ∧ off = 0x000))
    (hdata : ¬((width = .w32 ∨ width = .w8) ∧ off = 0x00C)) (v : Word) (s : State) :
    s.busWrite width off v = s := by
  rcases s.busWrite_cases width off v with h | ⟨hw, ho, -⟩ | ⟨hw, ho, -⟩
  · exact h
  · exact absurd ⟨hw, ho⟩ hcmd
  · exact absurd ⟨hw, ho⟩ hdata

theorem State.busWrite_window {off : Nat} (h : 0x1000 ≤ off) (width : Width) (v : Word) (s : State) :
    s.busWrite width off v = s :=
  State.busWrite_eq_self (by omega) (by omega) v s

theorem State.busWrite_readOnly {off : Nat} (h : off ∈ [0x004, 0x008, 0x010, 0x014, 0x018])
    (width : Width) (v : Word) (s : State) : s.busWrite width off v = s := by
  simp only [List.mem_cons, List.not_mem_nil, or_false] at h
  exact State.busWrite_eq_self (by omega) (by omega) v s

theorem State.busWrite_of_razWi {width : Width} {off : Nat} (h : RazWi true width off) (v : Word)
    (s : State) : s.busWrite width off v = s := by
  apply State.busWrite_eq_self
  · rintro ⟨rfl, rfl⟩
    simp [RazWi] at h
  · rintro ⟨rfl | rfl, rfl⟩ <;> simp [RazWi] at h

theorem State.readRegister_unmapped {off : Nat} (h : 0x01C ≤ off) (s : State) :
    s.readRegister off = 0 := by
  unfold State.readRegister
  split
  case h_6 => rfl
  all_goals omega

theorem State.busRead_of_razWi {width : Width} {off : Nat} (h : RazWi false width off) (s : State) :
    s.busRead width off = 0 := by
  cases width with
  | w8 =>
    have hlow : off < 0x1000 := by simp [RazWi] at h; omega
    simp [State.busRead, Nat.not_le.2 hlow]
  | w16 => rfl
  | other bytes => rfl
  | w32 =>
    by_cases ha : off % 4 = 0
    · obtain ⟨hmap, hlow⟩ : 0x01C ≤ off ∧ off < 0x1000 := by simpa [RazWi, ha] using h
      simp [State.busRead, Nat.not_le.2 hlow, State.readRegister_unmapped hmap]
    · simp [State.busRead, ha]

/-- Settles O19: a read that is not admitted answers 0, and a write that is not admitted, or goes to a
read-only register, is ignored. -/
theorem unsupportedAccessIsRazWi : Obligations.UnsupportedAccessIsRazWi := by
  intro s width off v ho
  refine ⟨fun hr es he => ?_, fun hw es he => ?_⟩
  · rw [step_read ho he, State.busRead_of_razWi hr]
    rfl
  · rw [step_write ho he]
    rcases hw with hw | ⟨-, hw⟩
    · rw [State.busWrite_of_razWi hw]
    · rw [State.busWrite_readOnly hw]

/-! ### The window -/

/-- Lane k of a window word is the byte k positions on (20_memory.md R54, R57): at a bit of that lane the
bytes of the lanes below have no bit left, and those of the lanes above are shifted past it. -/
theorem State.extractLsb'_windowWord (s : State) (p : Nat) {k : Nat} (hk : k < 4) :
    (s.windowWord p).extractLsb' (8 * k) 8 = s.outByte (p + k) := by
  unfold State.windowWord
  ext j hj
  simp only [BitVec.getElem_extractLsb', BitVec.getLsbD_or, BitVec.getLsbD_shiftLeft,
    BitVec.getLsbD_setWidth]
  interval_cases k <;> grind

/-- Settles O20: a window read is `OutByte` by positions and by lanes, and a window write is ignored. -/
theorem windowReadsReturnTheResult : Obligations.WindowReadsReturnTheResult := by
  intro s i hi
  refine ⟨?_, fun j k hk hjk => ?_, fun hcap hge => ?_, fun width v es he => ?_⟩
  · simp [State.busRead, State.outByte_eq]
  · rw [State.busRead_window (by omega) (by omega), State.extractLsb'_windowWord s _ hk,
      State.outByte_eq, hjk, Nat.add_sub_cancel_left]
  · rw [← State.outByte_eq]
    exact if_neg (by omega)
  · rw [step_write (by omega) he, State.busWrite_window (by omega)]

/-! ### The append -/

theorem State.busWrite_inData {width : Width} (hw : width = .w8 ∨ width = .w32) (v : Word) (s : State) :
    s.busWrite width 0x00C v = s.append (v.setWidth 8) := by
  rcases hw with rfl | rfl <;> rfl

theorem State.toNat_storeInput_inLen {s : State} (hn : s.inLen.toNat < 65535) (b : Byte) :
    (s.storeInput b).inLen.toNat = s.inLen.toNat + 1 := by
  rw [State.storeInput_inLen]
  bv_omega

/-- Storing a byte appends it to IN (20_memory.md R53). -/
theorem State.input_storeInput {s : State} (hwf : s.inBuf.wf) (hn : s.inLen.toNat < 65535) (b : Byte) :
    (s.storeInput b).input = s.input ++ [b] := by
  unfold State.input
  rw [State.toNat_storeInput_inLen hn]
  exact Memory.readBytes_write_end hwf s.inLen.toNat b

/-- Settles O15: an IN_DATA write is `append`, whose three cases are the drop, the stored byte and the
overflow. -/
theorem appendExtendsInput : Obligations.AppendExtendsInput := by
  intro s width v es hw he
  have hstep : step s = .next ((s.withEvents es).append (v.setWidth 8)) := by
    rw [step_write (by decide) he, State.busWrite_inData hw]
  rcases (s.withEvents es).append_cases (v.setWidth 8) with ⟨hb, ha⟩ | ⟨hb, hroom, ha⟩ | ⟨hb, hfull, ha⟩
  · exact ⟨fun _ => hstep.trans (congrArg _ ha), fun hi => by simp [hi] at hb⟩
  · refine ⟨fun hr => by simp [hr] at hb, fun _ => ⟨_, hstep.trans (congrArg _ ha), ?_⟩⟩
    refine ⟨⟨rfl, rfl, rfl⟩, rfl, rfl, rfl, rfl, rfl, rfl, rfl, rfl, rfl, rfl, rfl, rfl, ?_, ?_⟩
    · intro _ hwf hn
      refine ⟨State.input_storeInput hwf hn _, State.toNat_storeInput_inLen hn (v.setWidth 8), rfl, ?_⟩
      intro x hx
      simp [Memory.read_write hwf, hx]
    · exact fun hge => absurd hroom (Nat.not_lt.2 hge)
  · refine ⟨fun hr => by simp [hr] at hb, fun _ => ⟨_, hstep.trans (congrArg _ ha), ?_⟩⟩
    refine ⟨⟨rfl, rfl, rfl⟩, rfl, rfl, rfl, rfl, rfl, rfl, rfl, rfl, rfl, rfl, rfl, rfl, ?_, ?_⟩
    · exact fun hlt => absurd hlt (Nat.not_lt.2 hfull)
    · exact fun _ => ⟨rfl, rfl, rfl⟩

/-! ### The running command -/

/-- A turn that leaves the engine in RUN changes nothing: every commit ends in IDLE, so it was a wait for
the response (60_exceptions.md R224). -/
theorem engineStep_busy {s t : State} (h : engineStep s = .next t) (ht : t.busy = true) : t = s := by
  rcases engineStep_cases s with ⟨-, he⟩ | ⟨-, -, hash, -, he⟩ | ⟨-, -, he⟩ <;> cases he.symm.trans h
  · rfl
  · simp at ht
  · rfl

/-- What an event can do that comes while a command runs and leaves it running. -/
theorem performEvent_busy_cases {e : Event} {s t : State} (hs : s.busy = true)
    (h : performEvent e s = .next t) (ht : t.busy = true) :
    t = s ∨ (∃ d, t = s.observe d) ∨ t = s.dropWrite ∨ ∃ y, t = s.receiveDigest y := by
  rcases performEvent_cases h with ⟨a, -, -, rfl⟩ | ⟨-, rfl⟩ | ⟨y, -, rfl⟩ | ⟨-, h⟩ | ⟨-, rfl⟩
  · rcases s.performAccess_cases a with h | h | ⟨-, h⟩ | ⟨w, hb, -⟩ | ⟨b, hb, -⟩ | ⟨hb, -⟩
    · exact .inl h
    · exact .inr (.inl h)
    · exact .inr (.inr (.inl h))
    all_goals simp [hs] at hb
  · rcases s.hashAnswer_cases with h | ⟨f, -, -, h⟩
    · exact .inl h
    · exact .inr (.inr (.inr ⟨_, h⟩))
  · exact .inl rfl
  · exact .inl (engineStep_busy h ht)
  · simp at ht

/-- What a step can do that starts and ends with the same command running: it takes its event, and
beyond that only a read, a dropped write or the hash response leaves a trace. -/
theorem step_busy_cases {s t : State} (hs : s.busy = true) (h : step s = .next t)
    (ht : t.busy = true) : ∃ es, t = s.withEvents es ∨ (∃ d, t = (s.withEvents es).observe d) ∨
      t = (s.withEvents es).dropWrite ∨ ∃ y, t = (s.withEvents es).receiveDigest y := by
  rcases step_cases h with ⟨hes, h⟩ | ⟨e, es, -, h⟩
  · exact ⟨[], .inl ((engineStep_busy h ht).trans (State.withEvents_nil hes).symm)⟩
  · exact ⟨es, performEvent_busy_cases hs h ht⟩

/-- Settles O55, by the cases of a step that leaves the command running. -/
theorem runningCommandSeesFixedInput : Obligations.RunningCommandSeesFixedInput := by
  intro s t hs h ht
  obtain ⟨es, rfl | ⟨d, rfl⟩ | rfl | ⟨y, rfl⟩⟩ := step_busy_cases hs h ht <;>
    simp [State.KeepsInput, State.KeepsResults]

end Sys2Proof.Machine
end

section
/-! PROOFS. The converter (40_base58.md R100 to R120): encoding and decoding are inverse to each other,
where decoding fails, and how long an encoding can be. Both directions turn on one fact: a digit list
without a leading 0 is determined by its value, and a leading 0 by its symbol, the 0x00 byte or `'1'`. -/
namespace Sys2Proof.Machine

/-! ### Digits and bytes of a value -/

/-- The digits of a number do not begin with 0. -/
theorem head?_digitsOf_ne_zero {r : Nat} (hr : 1 < r) (n : Nat) : ∀ d ∈ (digitsOf r n).head?, d ≠ 0 := by
  intro d hd
  rw [digitsOf_eq hr, List.head?_reverse] at hd
  obtain ⟨hne, rfl⟩ := List.mem_getLast?_eq_getLast hd
  exact Nat.getLast_digit_ne_zero r (Nat.digits_ne_nil_iff_ne_zero.1 hne)

theorem map_toNat_minBE (n : Nat) : (minBE n).map BitVec.toNat = digitsOf 256 n := by
  have hbyte : ∀ d ∈ digitsOf 256 n, (BitVec.toNat ∘ BitVec.ofNat 8) d = id d := fun d hd =>
    Nat.mod_eq_of_lt (mem_digitsOf_lt (by decide) hd)
  rw [minBE, List.map_map, List.map_congr_left hbyte, List.map_id]

@[simp] theorem beValue_minBE (n : Nat) : beValue (minBE n) = n := by
  rw [beValue_eq_radixValue, map_toNat_minBE, radixValue_digitsOf (by decide)]

/-- `minBE` does not begin with 0x00 (00_scope.md R12). -/
theorem head?_minBE_ne_zero (n : Nat) : ∀ b ∈ (minBE n).head?, b ≠ 0 := by
  rintro b hb rfl
  refine head?_digitsOf_ne_zero (r := 256) (by decide) n 0 ?_ rfl
  rw [← map_toNat_minBE, List.head?_map, Option.mem_def.1 hb]
  rfl

/-- Bytes that do not begin with 0x00 are determined by their value. -/
theorem minBE_beValue {bs : Bytes} (h0 : ∀ b ∈ bs.head?, b ≠ 0) : minBE (beValue bs) = bs := by
  have hdigits : digitsOf 256 (beValue bs) = bs.map BitVec.toNat := by
    rw [beValue_eq_radixValue]
    refine digitsOf_radixValue (by decide) (by simpa using fun b _ => b.isLt) ?_
    simpa [← BitVec.toNat_inj] using h0
  rw [minBE, hdigits, List.map_map]
  exact List.map_id'' (fun b => by simp) bs

/-- Bytes are determined by their value and by how many leading 0x00 bytes they have. -/
theorem replicate_lz_append_minBE (b : Bytes) : List.replicate (lz b) 0 ++ minBE (beValue b) = b := by
  obtain ⟨rest, hb, h0⟩ := leadCount_split 0 b
  have hv : beValue b = beValue rest := by
    conv_lhs => rw [hb, beValue_replicate_zero_append]
  rw [hv, minBE_beValue h0]
  exact hb.symm

@[simp] theorem lz_replicate_append_minBE (k n : Nat) : lz (List.replicate k 0 ++ minBE n) = k :=
  leadCount_replicate_append k (head?_minBE_ne_zero n)

/-! ### The alphabet -/

theorem isSome_digit_iff (c : Byte) : (digit c).isSome ↔ c ∈ alphabet := by
  simp [digit]

/-- Digits that do not begin with 0 are spelled by characters that do not begin with `'1'`. -/
theorem head?_map_alpha_ne_zeroSymbol {ds : List Nat} (hlt : ∀ d ∈ ds, d < 58)
    (h0 : ∀ d ∈ ds.head?, d ≠ 0) : ∀ c ∈ (ds.map alpha).head?, c ≠ zeroSymbol := by
  intro c hc
  obtain ⟨d, hd, rfl⟩ : ∃ d ∈ ds.head?, alpha d = c := by simpa using hc
  rw [Ne, alpha_eq_zeroSymbol (hlt d (List.mem_of_mem_head? hd))]
  exact h0 d hd

/-! ### What encoding and decoding answer -/

/-- An encoding spells lz(b) zeros and then the digits of BE(b) (40_base58.md R100, R101). -/
theorem b58Encode_eq_map_alpha (b : Bytes) :
    b58Encode b = (List.replicate (lz b) 0 ++ digitsOf 58 (beValue b)).map alpha := by
  rw [List.map_append, List.map_replicate]
  rfl

theorem digitsIn_b58Encode (b : Bytes) :
    digitsIn (b58Encode b) = .ok (List.replicate (lz b) 0 ++ digitsOf 58 (beValue b)) := by
  rw [b58Encode_eq_map_alpha]
  refine digitsIn_map_alpha fun d hd => ?_
  rcases List.mem_append.1 hd with hd | hd
  · rw [List.eq_of_mem_replicate hd]
    decide
  · exact mem_digitsOf_lt (by decide) hd

/-- Leading 0x00 bytes become leading `'1'` characters (40_base58.md R101). -/
@[simp] theorem l1_b58Encode (b : Bytes) : l1 (b58Encode b) = lz b :=
  leadCount_replicate_append (lz b) (head?_map_alpha_ne_zeroSymbol
    (fun _ hd => mem_digitsOf_lt (by decide) hd) (head?_digitsOf_ne_zero (by decide) _))

theorem b58Decode_eq_ok {s b : Bytes} : b58Decode s = .ok b ↔
    ∃ ds, digitsIn s = .ok ds ∧ b = List.replicate (l1 s) 0 ++ minBE (radixValue 58 ds) := by
  unfold b58Decode
  cases digitsIn s <;> simp [eq_comm]

/-- Decoding succeeds exactly on the alphabet strings (40_base58.md R111). -/
theorem exists_b58Decode_eq_ok_iff (s : Bytes) : (∃ b, b58Decode s = .ok b) ↔ ∀ c ∈ s, c ∈ alphabet := by
  simp only [← isSome_digit_iff, ← digitsIn_isOk_iff, b58Decode_eq_ok]
  constructor
  · rintro ⟨-, ds, hds, -⟩
    exact ⟨ds, hds⟩
  · rintro ⟨ds, hds⟩
    exact ⟨_, ds, hds, rfl⟩

/-- The only error of decoding is InvalidCharacter (40_base58.md R120). -/
theorem b58Decode_eq_error {s : Bytes} {k : ErrKind} (h : b58Decode s = .error k) :
    k = .invalidCharacter := by
  unfold b58Decode at h
  split at h
  · cases h
  · next hk =>
    cases h
    exact digitsIn_eq_error hk

/-- Settles O26: decoding answers an error exactly where it does not succeed, and has one error only. -/
theorem decodeFailsOnlyOnInvalidCharacters : Obligations.DecodeFailsOnlyOnInvalidCharacters := by
  intro s k
  have hbad : (∃ c ∈ s, c ∉ alphabet) ↔ ¬ ∃ b, b58Decode s = .ok b := by
    simp [exists_b58Decode_eq_ok_iff]
  rw [hbad]
  cases h : b58Decode s with
  | ok b => simp
  | error k' => simp [b58Decode_eq_error h, eq_comm]

/-! ### The two inverses -/

/-- 40_base58.md R115. -/
theorem b58Decode_b58Encode (b : Bytes) : b58Decode (b58Encode b) = .ok b := by
  refine b58Decode_eq_ok.2 ⟨_, digitsIn_b58Encode b, ?_⟩
  rw [l1_b58Encode, radixValue_replicate_zero_append, radixValue_digitsOf (by decide),
    replicate_lz_append_minBE]

/-- 40_base58.md R116: the decoded bytes have a 0x00 for each leading `'1'` and the value of the digits
behind them, so their encoding spells the same digits. -/
theorem b58Encode_of_b58Decode {s b : Bytes} (h : b58Decode s = .ok b) : b58Encode b = s := by
  obtain ⟨ds, hds, rfl⟩ := b58Decode_eq_ok.1 h
  obtain ⟨hlt, hspell⟩ := digitsIn_eq_ok hds
  obtain ⟨ds', hsplit, h0⟩ := digitsIn_split hds
  have hdigits : digitsOf 58 (radixValue 58 ds) = ds' := by
    rw [hsplit, radixValue_replicate_zero_append]
    refine digitsOf_radixValue (by decide) (fun d hd => hlt d ?_) h0
    rw [hsplit]
    exact List.mem_append_right _ hd
  rw [b58Encode_eq_map_alpha, lz_replicate_append_minBE, beValue_replicate_zero_append, beValue_minBE,
    hdigits, ← hsplit, hspell]

theorem b58Encode_injective : Function.Injective b58Encode := fun b b' h =>
  Except.ok.inj ((b58Decode_b58Encode b).symm.trans (h ▸ b58Decode_b58Encode b'))

/-- Settles O24: encoding inverts decoding, and an encoding is an alphabet string since it decodes. -/
theorem base58InverseOnAlphabetStrings : Obligations.Base58InverseOnAlphabetStrings := by
  refine ⟨fun s hs => ?_, fun b => ?_, b58Encode_injective, fun s s' b h h' => ?_⟩
  · obtain ⟨b, hb⟩ := (exists_b58Decode_eq_ok_iff s).2 hs
    exact ⟨b, hb, b58Encode_of_b58Decode hb⟩
  · exact (exists_b58Decode_eq_ok_iff _).1 ⟨b, b58Decode_b58Encode b⟩
  · rw [← b58Encode_of_b58Decode h, b58Encode_of_b58Decode h']

/-! ### The round trip in the block -/

/-- The value of the bytes behind the leading 0x00 bytes. -/
theorem beValue_lt_pow_sub_lz (b : Bytes) : beValue b < 256 ^ (b.length - lz b) := by
  obtain ⟨rest, hb, -⟩ := leadCount_split 0 b
  have hlen : b.length - lz b = rest.length := by
    have h := congrArg List.length hb
    rw [List.length_append, List.length_replicate] at h
    exact Nat.sub_eq_of_eq_add' h
  rw [hlen]
  conv_lhs => rw [hb, beValue_replicate_zero_append]
  exact beValue_lt rest

/-- An encoding fits wherever the powers say so (40_base58.md R115): a leading 0x00 takes one character
of the `cap`, a factor 58 for a factor 256, and the value of the others takes the rest. -/
theorem length_b58Encode_le_of_pow_le {b : Bytes} {cap : Nat} (h : 256 ^ b.length ≤ 58 ^ cap) :
    (b58Encode b).length ≤ cap := by
  have hlz : lz b ≤ b.length := leadCount_le 0 b
  have hcap : lz b ≤ cap := (Nat.pow_le_pow_iff_right (a := 58) (by decide)).1 <|
    calc 58 ^ lz b ≤ 256 ^ lz b := Nat.pow_le_pow_left (by decide) _
      _ ≤ 256 ^ b.length := Nat.pow_le_pow_right (by decide) hlz
      _ ≤ 58 ^ cap := h
  have hvalue : beValue b < 58 ^ (cap - lz b) := by
    refine Nat.lt_of_mul_lt_mul_right (a := 58 ^ lz b) ?_
    calc beValue b * 58 ^ lz b
        < 256 ^ (b.length - lz b) * 58 ^ lz b :=
          Nat.mul_lt_mul_of_pos_right (beValue_lt_pow_sub_lz b) (Nat.pow_pos (by decide))
      _ ≤ 256 ^ (b.length - lz b) * 256 ^ lz b :=
          Nat.mul_le_mul_left _ (Nat.pow_le_pow_left (by decide) _)
      _ = 256 ^ b.length := by rw [← Nat.pow_add, Nat.sub_add_cancel hlz]
      _ ≤ 58 ^ cap := h
      _ = 58 ^ (cap - lz b) * 58 ^ lz b := by rw [← Nat.pow_add, Nat.sub_add_cancel hcap]
  have hdigits := length_digitsOf_le (by decide) hvalue
  simp only [b58Encode, List.length_append, List.length_replicate, List.length_map]
  omega

/-- A command that asks the hash nothing commits its outcome at once (43_control.md R191). -/
theorem exec_of_commandRequest_none {i : Instr} {s : State} (hi : i ≠ .clrin) (ho : s.inovf = false)
    (hr : commandRequest i s.input = none) :
    exec i s = .next (s.commit (commandOutcome (fun _ => []) i s.input)) := by
  simp [exec_eq_runCommand hi, State.runCommand, ho, hr]

/-- A committed result that fits in OUT_LEN is the result sequence (43_control.md R197). -/
theorem State.output_commit_out {s : State} (hw : s.outBuf.wf) {bs : Bytes} (hl : bs.length < 65536) :
    (s.commit (.out bs)).output = bs :=
  State.output_putOutput (s := s.finish) hw hl

theorem State.length_input_le {s : State} (h : s.Ready) : s.input.length ≤ 2040 := by
  obtain ⟨⟨-, hcap, -⟩, -, hin⟩ := h
  rw [State.input, Memory.length_readBytes]
  exact hin.trans hcap

theorem State.output_commit_b58Encode {s : State} (h : s.Ready) :
    (s.commit (.out (b58Encode s.input))).output = b58Encode s.input := by
  have hin := State.length_input_le h
  have hout := length_b58Encode_le s.input
  obtain ⟨-, hw, -⟩ := h
  exact State.output_commit_out hw (by omega)

theorem State.output_commit_b58Decode {s : State} (h : s.Ready) {b : Bytes}
    (hb : b58Decode s.input = .ok b) : (s.commit (.out b)).output = b := by
  have hin := State.length_input_le h
  have hout := length_b58Decode_le hb
  obtain ⟨-, hw, -⟩ := h
  exact State.output_commit_out hw (by omega)

/-- B58DEC on the result of B58ENC reproduces its input (40_base58.md R115). -/
theorem exec_b58dec_of_exec_b58enc {s s' t : State} (hs : s.Ready) (hs' : s'.Ready)
    (ho : s.inovf = false) (ho' : s'.inovf = false) (ht : exec .b58enc s = .next t)
    (hin : s'.input = t.output) :
    ∃ t', exec .b58dec s' = .next t' ∧ t'.output = s.input ∧ t'.err = false := by
  rw [exec_of_commandRequest_none (by decide) ho rfl] at ht
  cases ht
  have hdec : b58Decode s'.input = .ok s.input := by
    rw [hin]
    exact (congrArg b58Decode (State.output_commit_b58Encode hs)).trans (b58Decode_b58Encode s.input)
  have hexec : exec .b58dec s' = .next (s'.commit (.out s.input)) := by
    rw [exec_of_commandRequest_none (by decide) ho' rfl, commandOutcome, hdec]
    rfl
  exact ⟨_, hexec, State.output_commit_b58Decode hs' hdec, rfl⟩

/-- Settles O23: the law, the capacity condition with its value at CAP_IN = 256, and the block. -/
theorem base58RoundTrip : Obligations.Base58RoundTrip :=
  ⟨b58Decode_b58Encode, fun _ _ => length_b58Encode_le_of_pow_le, by norm_num,
    fun _ _ _ => exec_b58dec_of_exec_b58enc⟩

end Sys2Proof.Machine
end

section
/-! PROOFS. The framer (41_framer.md R130 to R143): Unframe's answer in each case of its step order, the
frame that FrameBuild built under Unframe, changes and bit flips in it, and the commands' hash requests.
A change is seen through the two parts of the bytes: at one length, bytes that differ differ in the frame
part, whose digest is asked anew, or in the checksum part, which that digest is compared with. -/
namespace Sys2Proof.Machine

section
variable {h : Bytes → Bytes} {ver : Option Byte} {eb : Bytes}

/-! ### Unframe, case by case (41_framer.md R136, R141) -/

theorem unframeBytes_of_lt (hlen : eb.length < 5) : unframeBytes h ver eb = .error .tooShort :=
  if_pos hlen

theorem unframeBytes_of_checksum_error {k : ErrKind} (hlen : 5 ≤ eb.length)
    (hc : checksum h (framePart eb) = .error k) : unframeBytes h ver eb = .error k := by
  rw [unframeBytes, if_neg (Nat.not_lt.2 hlen), hc]

theorem unframeBytes_of_checksum_ok {c : Bytes} (hlen : 5 ≤ eb.length)
    (hc : checksum h (framePart eb) = .ok c) : unframeBytes h ver eb =
      if c = checksumPart eb then stripFrame ver (framePart eb) else .error .checksumMismatch := by
  rw [unframeBytes, if_neg (Nat.not_lt.2 hlen), hc]

theorem unframeBytes_of_digest_lt (hlen : 5 ≤ eb.length) (hd : (h (framePart eb)).length < 4) :
    unframeBytes h ver eb = .error .hashFault :=
  unframeBytes_of_checksum_error hlen (checksum_eq_error.2 ⟨hd, rfl⟩)

theorem unframeBytes_of_ne (hlen : 5 ≤ eb.length) (hd : 4 ≤ (h (framePart eb)).length)
    (hne : (h (framePart eb)).take 4 ≠ checksumPart eb) :
    unframeBytes h ver eb = .error .checksumMismatch := by
  rw [unframeBytes_of_checksum_ok hlen (checksum_eq_ok.2 ⟨hd, rfl⟩), if_neg hne]

theorem unframeBytes_of_eq (hlen : 5 ≤ eb.length) (hd : 4 ≤ (h (framePart eb)).length)
    (heq : (h (framePart eb)).take 4 = checksumPart eb) :
    unframeBytes h ver eb = stripFrame ver (framePart eb) := by
  rw [unframeBytes_of_checksum_ok hlen (checksum_eq_ok.2 ⟨hd, rfl⟩), if_pos heq]

theorem unframeRequest_of_lt (hlen : eb.length < 5) : unframeRequest eb = none :=
  if_pos hlen

theorem unframeRequest_of_le (hlen : 5 ≤ eb.length) : unframeRequest eb = some (framePart eb) :=
  if_neg (Nat.not_lt.2 hlen)

theorem versionOk_iff {b : Byte} : versionOk ver b = true ↔ ∀ v, ver = some v → b = v := by
  cases ver <;> simp [versionOk]

/-- Stripping a verified frame never answers ChecksumMismatch. -/
theorem stripFrame_ne_checksumMismatch (f : Bytes) : stripFrame ver f ≠ .error .checksumMismatch := by
  cases f with
  | nil => simp [stripFrame]
  | cons b p => cases hv : versionOk ver b <;> simp [stripFrame, hv]

/-- With a digest long enough, ChecksumMismatch is exactly a checksum part that the digest does not begin
with. -/
theorem unframeBytes_eq_checksumMismatch_iff (hlen : 5 ≤ eb.length)
    (hd : 4 ≤ (h (framePart eb)).length) : unframeBytes h ver eb = .error .checksumMismatch ↔
      (h (framePart eb)).take 4 ≠ checksumPart eb := by
  refine ⟨fun he heq => ?_, unframeBytes_of_ne hlen hd⟩
  rw [unframeBytes_of_eq hlen hd heq] at he
  exact stripFrame_ne_checksumMismatch _ he

end

/-- Settles O30: a frame of at least one byte and four checksum bytes take Unframe through its cases. -/
theorem unframeFollowsTheStepOrder : Obligations.UnframeFollowsTheStepOrder := by
  intro h ver eb
  refine ⟨fun hlen => ⟨unframeBytes_of_lt hlen, unframeRequest_of_lt hlen⟩, ?_⟩
  intro b p c heb hc
  have hf : framePart eb = b :: p := heb ▸ framePart_append hc
  have hcs : checksumPart eb = c := heb ▸ checksumPart_append hc
  have hlen : 5 ≤ eb.length := by simp [heb, hc]
  rw [← hf, ← hcs]
  refine ⟨unframeRequest_of_le hlen, unframeBytes_of_digest_lt hlen, unframeBytes_of_ne hlen,
    fun hd heq => ⟨fun v hv hne => ?_, fun hver => ?_⟩⟩
  · rw [unframeBytes_of_eq hlen hd heq, hf, hv]
    exact if_neg (by simpa [versionOk] using hne)
  · exact unframeBytes_eq_ok.2 ⟨hlen, hd, heq, hf, versionOk_iff.2 hver⟩

/-! ### A built frame -/

/-- The two parts of what FrameBuild built: the frame, and the first four bytes of its digest
(41_framer.md R135). -/
theorem parts_of_frameBuild {h : Bytes → Bytes} {v : Byte} {p eb : Bytes}
    (hb : frameBuild h v p = .ok eb) : framePart eb = frameOf v p ∧
      4 ≤ (h (framePart eb)).length ∧ (h (framePart eb)).take 4 = checksumPart eb := by
  obtain ⟨hd, rfl⟩ := frameBuild_eq_ok.1 hb
  have hc : ((h (frameOf v p)).take 4).length = 4 := List.length_take_of_le hd
  rw [framePart_append hc, checksumPart_append hc]
  exact ⟨rfl, hd, rfl⟩

theorem unframeBytes_of_frameBuild {h : Bytes → Bytes} {v : Byte} {p eb : Bytes} {ver : Option Byte}
    (hb : frameBuild h v p = .ok eb) (hv : versionOk ver v = true) :
    unframeBytes h ver eb = .ok (v, p) := by
  obtain ⟨hf, hd, heq⟩ := parts_of_frameBuild hb
  have hlen := length_frameBuild hb
  exact unframeBytes_eq_ok.2 ⟨by omega, hd, heq, hf, hv⟩

/-- Settles O31: the version byte of a built frame passes the check of either form. -/
theorem builtFrameVerifies : Obligations.BuiltFrameVerifies := fun _ _ _ _ hb =>
  ⟨unframeBytes_of_frameBuild hb rfl, unframeBytes_of_frameBuild hb (by simp [versionOk])⟩

/-! ### Changes in a built frame (41_framer.md R143) -/

theorem framePart_append_checksumPart (eb : Bytes) : framePart eb ++ checksumPart eb = eb :=
  List.take_append_drop _ eb

/-- A change that leaves the frame part alone is a ChecksumMismatch for every hash: the frame's digest
begins with the old checksum part. -/
theorem unframeBytes_of_checksumPart_changed {h : Bytes → Bytes} {v : Byte} {p eb eb' : Bytes}
    {ver : Option Byte} (hb : frameBuild h v p = .ok eb) (hlen : eb'.length = eb.length)
    (hne : eb' ≠ eb) (hf : framePart eb' = framePart eb) :
    unframeBytes h ver eb' = .error .checksumMismatch := by
  obtain ⟨-, hd, heq⟩ := parts_of_frameBuild hb
  have hlen' := length_frameBuild hb
  have hcs : checksumPart eb ≠ checksumPart eb' := fun hcs => hne <| by
    rw [← framePart_append_checksumPart eb', hf, ← hcs, framePart_append_checksumPart]
  rw [← hf] at hd heq
  exact unframeBytes_of_ne (by omega) hd (heq ▸ hcs)

/-! ### Bit flips in what an encoded string decodes to (42_coinstring.md R169) -/

theorem csEncode_eq_ok {h : Bytes → Bytes} {v : Byte} {p s : Bytes} :
    csEncode h v p = .ok s ↔ ∃ eb, frameBuild h v p = .ok eb ∧ b58Encode eb = s := by
  unfold csEncode
  cases frameBuild h v p <;> simp

theorem csDecode_b58Encode (h : Bytes → Bytes) (ver : Option Byte) (eb : Bytes) :
    csDecode h ver (b58Encode eb) = unframeBytes h ver eb := by
  rw [csDecode, b58Decode_b58Encode]

theorem flipBit_of_length_le {bs : Bytes} {i : Nat} (hi : bs.length ≤ i) (k : Nat) :
    flipBit bs i k = bs :=
  List.modify_eq_self hi

theorem length_framePart (eb : Bytes) : (framePart eb).length = eb.length - 4 := by
  simp [framePart, checksumLength]

/-- The frame part of flipped bytes; a flip behind the frame leaves it alone. -/
theorem framePart_flipBit (eb : Bytes) (i k : Nat) :
    framePart (flipBit eb i k) = flipBit (framePart eb) i k := by
  rw [framePart, length_flipBit]
  exact List.take_modify ..

/-- A flip in the frame leaves the checksum part alone. -/
theorem checksumPart_flipBit {eb : Bytes} {i : Nat} (hi : i < eb.length - 4) (k : Nat) :
    checksumPart (flipBit eb i k) = checksumPart eb := by
  rw [checksumPart, length_flipBit]
  exact List.drop_modify_of_lt _ _ _ _ hi

/-- Settles O32: a flip behind the frame is a change of the checksum part only, and a flip in the frame
asks the digest of the flipped frame and leaves the checksum part as it was built. -/
theorem checksumByteFlipIsDetected : Obligations.ChecksumByteFlipIsDetected := by
  refine ⟨fun h v p eb eb' ver hb hlen hne => ?_, fun h v p s ver hs => ?_⟩
  · have hlen' : 5 ≤ eb'.length := by rw [hlen, length_frameBuild hb]; omega
    exact ⟨unframeBytes_of_checksumPart_changed hb hlen hne,
      fun _ => ⟨unframeBytes_of_digest_lt hlen', unframeBytes_eq_checksumMismatch_iff hlen'⟩⟩
  · obtain ⟨eb, hb, rfl⟩ := csEncode_eq_ok.1 hs
    obtain ⟨-, -, hcs⟩ := parts_of_frameBuild hb
    have hlen := length_frameBuild hb
    refine ⟨eb, b58Decode_b58Encode eb, hlen, fun i k hi hk => ?_⟩
    have hne := flipBit_ne hi hk
    have hlen' : 5 ≤ (flipBit eb i k).length := by rw [length_flipBit]; omega
    rw [csDecode_b58Encode, ← framePart_flipBit]
    refine ⟨hne, b58Decode_b58Encode _, length_flipBit .., fun hbehind => ?_, fun hin =>
      ⟨rfl, unframeBytes_of_digest_lt hlen', fun hd => ?_⟩⟩
    · refine unframeBytes_of_checksumPart_changed hb (length_flipBit ..) hne ?_
      rw [framePart_flipBit, flipBit_of_length_le (by rwa [length_framePart])]
    · have hiff : unframeBytes h ver (flipBit eb i k) = .error .checksumMismatch ↔
          (h (framePart (flipBit eb i k))).take 4 ≠ (h (framePart eb)).take 4 := by
        rw [unframeBytes_eq_checksumMismatch_iff hlen' hd, checksumPart_flipBit hin, hcs]
      refine ⟨hiff, fun hflip => hiff.2 ?_⟩
      rw [framePart_flipBit]
      exact hflip _ i k (by rwa [length_framePart]) hk

/-! ### The commands' hash requests (41_framer.md R142) -/

theorem csDecodeRequest_of_error {s : Bytes} {k : ErrKind} (hs : b58Decode s = .error k) :
    csDecodeRequest s = none := by
  rw [csDecodeRequest, hs]

theorem csDecodeRequest_of_ok {s eb : Bytes} (hs : b58Decode s = .ok eb) :
    csDecodeRequest s = unframeRequest eb := by
  rw [csDecodeRequest, hs]

/-- The forms with and without an expected version make the same request. -/
theorem commandRequest_of_mem_unframe {i : Instr} {v : Nat} (hi : i ∈ [Instr.unframe, .unframeV v])
    (inp : Bytes) : commandRequest i inp = unframeRequest inp := by
  simp only [List.mem_cons, List.not_mem_nil, or_false] at hi
  rcases hi with rfl | rfl <;> rfl

theorem commandRequest_of_mem_decode {i : Instr} {v : Nat}
    (hi : i ∈ [Instr.csdec, .csdecV v, .csvalV v]) (inp : Bytes) :
    commandRequest i inp = csDecodeRequest inp := by
  simp only [List.mem_cons, List.not_mem_nil, or_false] at hi
  rcases hi with rfl | rfl | rfl <;> rfl

theorem State.hashRequest_of_digest {s : State} {y : Bytes} (hd : s.digest = some y) :
    s.hashRequest = none := by
  rw [State.hashRequest, hd]

theorem State.hashAnswer_of_hashRequest {s : State} (hr : s.hashRequest = none) : s.hashAnswer = s := by
  rw [State.hashAnswer, hr]

/-- Settles O37: the request of each form, and none outstanding once the response has arrived. -/
theorem commandHashRequests : Obligations.CommandHashRequests := by
  refine ⟨fun v inp => ⟨rfl, rfl, rfl, rfl, rfl, fun i hi => ?_, fun i hi => ?_⟩, fun s y hd => ?_⟩
  · rw [commandRequest_of_mem_unframe hi]
    exact ⟨unframeRequest_of_lt, unframeRequest_of_le⟩
  · rw [commandRequest_of_mem_decode hi]
    refine ⟨fun k => csDecodeRequest_of_error, fun eb hs hlen => ?_, fun eb hs hlen => ?_⟩
    · rw [csDecodeRequest_of_ok hs, unframeRequest_of_lt hlen]
    · rw [csDecodeRequest_of_ok hs, unframeRequest_of_le hlen]
      rfl
  · have hr := State.hashRequest_of_digest hd
    exact ⟨hr, State.hashAnswer_of_hashRequest hr⟩

end Sys2Proof.Machine
end

section
/-! PROOFS. The codec (42_coinstring.md R160 to R168): decoding what was encoded strips the frame that was
built, so only the version check is left to decide; and the same in the block, where both commands are held
to the hash function that answers everything with the one response. -/
namespace Sys2Proof.Machine

/-! ### Decoding an encoded payload -/

/-- What FrameBuild built passes Unframe's checksum, for every hash: the version check and the stripping
are left (41_framer.md R136, R139). -/
theorem unframeBytes_eq_stripFrame_of_frameBuild {h : Bytes → Bytes} {v : Byte} {p eb : Bytes}
    (hb : frameBuild h v p = .ok eb) (ver : Option Byte) :
    unframeBytes h ver eb = stripFrame ver (frameOf v p) := by
  obtain ⟨hf, hd, heq⟩ := parts_of_frameBuild hb
  have hlen := length_frameBuild hb
  rw [unframeBytes_of_eq (by omega) hd heq, hf]

theorem stripFrame_frameOf (ver : Option Byte) (v : Byte) (p : Bytes) :
    stripFrame ver (frameOf v p) =
      if versionOk ver v then .ok (v, p) else .error .versionMismatch := rfl

section
variable {h : Bytes → Bytes} {v : Byte} {p s : Bytes}

/-- 42_coinstring.md R167, R168: Base58 gives back the built frame, and only the version check decides. -/
theorem csDecode_of_csEncode (hs : csEncode h v p = .ok s) (ver : Option Byte) :
    csDecode h ver s = if versionOk ver v then .ok (v, p) else .error .versionMismatch := by
  obtain ⟨eb, hb, rfl⟩ := csEncode_eq_ok.1 hs
  rw [csDecode_b58Encode, unframeBytes_eq_stripFrame_of_frameBuild hb, stripFrame_frameOf]

theorem csDecode_none_of_csEncode (hs : csEncode h v p = .ok s) : csDecode h none s = .ok (v, p) := by
  rw [csDecode_of_csEncode hs, if_pos (versionOk_iff.2 (by simp))]

theorem csDecode_some_of_csEncode (hs : csEncode h v p = .ok s) :
    csDecode h (some v) s = .ok (v, p) := by
  rw [csDecode_of_csEncode hs, if_pos (versionOk_iff.2 (by simp))]

theorem csDecode_of_csEncode_of_ne (hs : csEncode h v p = .ok s) {w : Byte} (hw : w ≠ v) :
    csDecode h (some w) s = .error .versionMismatch := by
  rw [csDecode_of_csEncode hs, if_neg (by simpa [versionOk_iff] using hw.symm)]

/-! ### The length of an encoded payload -/

/-- An encoded payload is the Base58 of 5 bytes more (41_framer.md R135). -/
theorem exists_b58Encode_of_csEncode (hs : csEncode h v p = .ok s) :
    ∃ eb : Bytes, eb.length = p.length + 5 ∧ b58Encode eb = s := by
  obtain ⟨eb, hb, he⟩ := csEncode_eq_ok.1 hs
  exact ⟨eb, length_frameBuild hb, he⟩

/-- The payload and 5 bytes fit wherever the powers say so. -/
theorem length_csEncode_le_of_pow_le (hs : csEncode h v p = .ok s) {cap : Nat}
    (hcap : 256 ^ (p.length + 5) ≤ 58 ^ cap) : s.length ≤ cap := by
  obtain ⟨eb, hlen, rfl⟩ := exists_b58Encode_of_csEncode hs
  exact length_b58Encode_le_of_pow_le (hlen ▸ hcap)

theorem length_csEncode_le (hs : csEncode h v p = .ok s) : s.length ≤ 2 * (p.length + 5) := by
  obtain ⟨eb, hlen, rfl⟩ := exists_b58Encode_of_csEncode hs
  exact hlen ▸ length_b58Encode_le eb

/-- Encoding succeeds under a digest of at least 4 bytes (41_framer.md R133, R135). -/
theorem exists_csEncode_eq_ok (v : Byte) (p : Bytes) (hd : 4 ≤ (h (frameOf v p)).length) :
    ∃ s, csEncode h v p = .ok s :=
  ⟨_, csEncode_eq_ok.2 ⟨_, frameBuild_eq_ok.2 ⟨hd, rfl⟩, rfl⟩⟩

end

/-! ### The codec in the block -/

/-- A command whose response has arrived commits its outcome under the function that answers everything
with that response; a command that makes no request does not ask it (43_control.md R191). -/
theorem exec_of_digest {i : Instr} {s : State} {y : Bytes} (hi : i ≠ .clrin) (ho : s.inovf = false)
    (hd : s.digest = some y) :
    exec i s = .next (s.commit (commandOutcome (fun _ => y) i s.input)) := by
  cases hr : commandRequest i s.input with
  | none =>
    rw [exec_of_commandRequest_none hi ho hr, commandOutcome_congr (h' := fun _ => y) (by simp [hr])]
  | some f => simp [exec_eq_runCommand hi, State.runCommand, ho, hr, hd]

/-- A committed payload that fits in OUT_LEN is the result sequence (43_control.md R197). -/
theorem State.output_commit_decoded {s : State} (hw : s.outBuf.wf) (v : Byte) {p : Bytes}
    (hl : p.length < 65536) : (s.commit (.decoded v p)).output = p :=
  State.output_putOutput (s := s.finish) hw hl

/-- The version byte of an operand that is a byte (30_encoding.md R82). -/
theorem toNat_versionByte {v : Nat} (hv : v ≤ 255) : (versionByte v).toNat = v := by
  rw [versionByte, BitVec.toNat_ofNat, Nat.mod_eq_of_lt (by omega)]

/-- CSENC v under a response of at least 4 bytes leaves the encoded input in OUT (42_coinstring.md R160). -/
theorem csEncode_eq_output_of_exec_csencV {s t : State} {v : Nat} {y : Bytes} (hs : s.Ready)
    (ho : s.inovf = false) (hd : s.digest = some y) (hy : 4 ≤ y.length)
    (ht : exec (.csencV v) s = .next t) :
    csEncode (fun _ => y) (versionByte v) s.input = .ok t.output := by
  obtain ⟨bs, hbs⟩ := exists_csEncode_eq_ok (h := fun _ => y) (versionByte v) s.input hy
  have hin := State.length_input_le hs
  have hout := length_csEncode_le hbs
  rw [exec_of_digest (by simp) ho hd, commandOutcome, hbs] at ht
  cases ht
  obtain ⟨-, hw, -⟩ := hs
  exact hbs.trans (congrArg _ (State.output_commit_out hw (by omega)).symm)

/-- CSDEC and CSDEC v on an encoded payload answer the version and the payload (42_coinstring.md R167). -/
theorem commandOutcome_of_csEncode {h : Bytes → Bytes} {i : Instr} {v : Nat} {p inp : Bytes}
    (hi : i ∈ [Instr.csdec, .csdecV v]) (hs : csEncode h (versionByte v) p = .ok inp) :
    commandOutcome h i inp = .decoded (versionByte v) p := by
  simp only [List.mem_cons, List.not_mem_nil, or_false] at hi
  rcases hi with rfl | rfl
  · exact congrArg outcomeOfDecoded (csDecode_none_of_csEncode hs)
  · exact congrArg outcomeOfDecoded (csDecode_some_of_csEncode hs)

/-- CSDEC and CSDEC v on the result of CSENC v, under the same response, commit its version and its
input. -/
theorem exec_csdec_of_exec_csencV {s s' t : State} {i : Instr} {v : Nat} {y : Bytes} (hs : s.Ready)
    (ho : s.inovf = false) (ho' : s'.inovf = false) (hd : s.digest = some y)
    (hd' : s'.digest = some y) (hy : 4 ≤ y.length) (ht : exec (.csencV v) s = .next t)
    (hin : s'.input = t.output) (hi : i ∈ [Instr.csdec, .csdecV v]) :
    exec i s' = .next (s'.commit (.decoded (versionByte v) s.input)) := by
  have henc := csEncode_eq_output_of_exec_csencV hs ho hd hy ht
  have hclrin : i ≠ .clrin := by
    rintro rfl
    simp at hi
  rw [exec_of_digest hclrin ho' hd', hin, commandOutcome_of_csEncode hi henc]

/-- Settles O33: the law and the capacity condition with its value at CAP_IN = 256, and the block. -/
theorem codecRoundTrip : Obligations.CodecRoundTrip := by
  refine ⟨fun h v p s hs => ⟨csDecode_none_of_csEncode hs, csDecode_some_of_csEncode hs,
    fun _ => csDecode_of_csEncode_of_ne hs, fun _ => length_csEncode_le_of_pow_le hs⟩,
    by norm_num, ?_⟩
  intro s s' t v y hs hs' ho ho' hd hd' hy hv ht hin i hi
  have hlen := State.length_input_le hs
  obtain ⟨-, hw, -⟩ := hs'
  exact ⟨_, exec_csdec_of_exec_csencV hs ho ho' hd hd' hy ht hin hi,
    State.output_commit_decoded hw _ (by omega), toNat_versionByte hv, rfl⟩

end Sys2Proof.Machine
end

section
/-! PROOFS. Control (43_control.md R190 to R198): the accepted and the dropped host write, CLRIN, illegal
words, what a command leaves of the input, and the failures. On its turn the engine commits `Exec(CUR)` under
H unless it waits for a response: the outcome asks its hash function at the needed request only, and there the
invariant makes the response H's. -/
namespace Sys2Proof.Machine

/-! ### CMD and IN_DATA writes (43_control.md R190, R198) -/

theorem step_cmdWrite {s : State} {w : Word} {es : List Event}
    (he : s.events = .host (.write .w32 s.cfg.base w) :: es) :
    step s = .next ((s.withEvents es).writeCmd w) :=
  step_write (off := 0x000) (by decide) he

/-- Settles O13: a CMD write that finds the block idle is its accept. -/
theorem cmdWriteIsAccepted : Obligations.CmdWriteIsAccepted := by
  intro s w es hb he
  rcases (s.withEvents es).writeCmd_cases w with ⟨hbusy, -⟩ | ⟨-, hacc⟩
  · simp [hb] at hbusy
  · exact ⟨_, (step_cmdWrite he).trans (congrArg _ hacc), rfl, rfl, rfl, rfl, rfl, rfl, rfl, rfl, rfl,
      ⟨rfl, rfl, rfl⟩, ⟨rfl, rfl, rfl⟩, rfl, rfl, rfl⟩

/-- Settles O14: the CMD write is dropped by `writeCmd`, the IN_DATA write of either width by `append`. -/
theorem busyWriteOnlySetsOvr : Obligations.BusyWriteOnlySetsOvr := by
  rintro s a es hb he ⟨w, rfl | rfl | rfl⟩
  · rcases (s.withEvents es).writeCmd_cases w with ⟨-, hdrop⟩ | ⟨hidle, -⟩
    · exact (step_cmdWrite he).trans (congrArg _ hdrop)
    · simp [hb] at hidle
  · exact (appendExtendsInput s .w32 w es (.inr rfl) he).1 hb
  · exact (appendExtendsInput s .w8 w es (.inl rfl) he).1 hb

/-! ### Commands and the input (43_control.md R194, R196) -/

/-- Settles O47: CLRIN commits ClearIn in every state. -/
theorem clrinEmptiesTheInput : Obligations.ClrinEmptiesTheInput :=
  ⟨rfl, fun _ => rfl, fun s => ⟨_, exec_clrin s, rfl, rfl, rfl, rfl,
    ⟨rfl, rfl, rfl, rfl, rfl, rfl, rfl⟩, ⟨rfl, rfl, rfl⟩, rfl, rfl, rfl, rfl, rfl⟩⟩

theorem outcomeOfBytes_ne_clearIn (r : Except ErrKind Bytes) : outcomeOfBytes r ≠ .clearIn := by
  cases r <;> simp [outcomeOfBytes]

theorem outcomeOfDecoded_ne_clearIn (r : Except ErrKind (Byte × Bytes)) :
    outcomeOfDecoded r ≠ .clearIn := by
  cases r <;> simp [outcomeOfDecoded]

theorem outcomeOfValidate_ne_clearIn (r : Except ErrKind (Byte × Bytes)) :
    outcomeOfValidate r ≠ .clearIn := by
  cases r with
  | ok r => simp [outcomeOfValidate]
  | error k => cases k <;> simp [outcomeOfValidate]

/-- ClearIn is CLRIN's outcome only (43_control.md R191). -/
theorem commandOutcome_ne_clearIn {i : Instr} (hi : i ≠ .clrin) (h : Bytes → Bytes) (inp : Bytes) :
    commandOutcome h i inp ≠ .clearIn := by
  cases i with
  | b58enc => simp [commandOutcome]
  | csvalV v => exact outcomeOfValidate_ne_clearIn _
  | csdec | csdecV v | unframe | unframeV v => exact outcomeOfDecoded_ne_clearIn _
  | b58dec | csencV v | frameV v => exact outcomeOfBytes_ne_clearIn _
  | clrin => exact absurd rfl hi

theorem State.keepsInput_commit {o : CmdOutcome} (ho : o ≠ .clearIn) (s : State) :
    s.KeepsInput (s.commit o) :=
  ⟨s.commit_inBuf o, State.inLen_commit ho s⟩

/-- Settles O52: the command waits, or it commits an outcome that is not ClearIn. -/
theorem inputPersistsAcrossCommands : Obligations.InputPersistsAcrossCommands := by
  intro s t i hi ht
  rcases exec_cases i s with ⟨h, -, -, he⟩ | ⟨-, he⟩ <;> cases he.symm.trans ht
  · apply State.keepsInput_commit
    rw [if_neg hi]
    split
    · simp
    · exact commandOutcome_ne_clearIn hi h s.input
  · exact ⟨rfl, rfl, rfl⟩

/-! ### Failures and illegal words (43_control.md R193, R195) -/

/-- The commit of Fail(k) writes only STATUS. -/
theorem State.failedWith_commit_fail (s : State) (k : ErrKind) : s.FailedWith (s.commit (.fail k)) k :=
  ⟨⟨rfl, rfl, rfl, rfl, rfl, rfl, rfl⟩, ⟨rfl, rfl, rfl⟩, ⟨rfl, rfl, rfl⟩, rfl, rfl, rfl, rfl, rfl⟩

/-- Only the commit of a failure sets ERR. -/
theorem State.exists_fail_of_err_commit {o : CmdOutcome} {s : State} (h : (s.commit o).err = true) :
    ∃ k, o = .fail k := by
  cases o with
  | fail k => exact ⟨k, rfl⟩
  | out bs | decoded v p | valid b | clearIn => cases h

/-- An illegal word makes no hash request. -/
theorem State.hashRequest_of_decode_error {s : State} {r : Reject} (hd : decode s.cur = .error r) :
    s.hashRequest = none := by
  rw [Option.eq_none_iff_forall_ne_some]
  intro f hf
  simp [State.hashRequest_eq_some, State.neededRequest_eq_some, hd] at hf

theorem engineStep_of_decode_error {s : State} {r : Reject} (he : s.eng = .run)
    (hd : decode s.cur = .error r) : engineStep s = .next (s.commit (.fail .illegalCommand)) := by
  simp [engineStep, he, hd]

/-- Settles O49: the illegal word's completion is the commit of Fail(IllegalCommand). -/
theorem illegalWordCompletesWithIllegalCommand : Obligations.IllegalWordCompletesWithIllegalCommand := by
  intro s r he hturn hd
  exact ⟨State.hashRequest_of_decode_error hd, _,
    (step_of_engineTurn hturn).trans (engineStep_of_decode_error he hd),
    State.failedWith_commit_fail _ _, rfl⟩

/-! ### The engine's turn under the invariant (43_control.md R191 to R193) -/

/-- The invariant does not speak of the schedule. -/
theorem State.Inv.withEvents {s : State} (h : s.Inv) (es : List Event) : (s.withEvents es).Inv :=
  { h with }

/-- Until its completion a running command's ERR is 0 (10_state.md R30, 43_control.md R190). -/
theorem State.Inv.err_of_run {s : State} (h : s.Inv) (he : s.eng = .run) : s.err = false := by
  have hdone : s.done = false := by
    have hbusy : s.busy = true := by simp [State.busy, he]
    simpa [hbusy] using h.notBusyDone
  exact (h.clearBeforeDone hdone).1

/-- The running word's outcome asks the hash at the needed request only (43_control.md R191). -/
theorem State.execOutcome_congr {s : State} {h h' : Bytes → Bytes} (he : s.eng = .run)
    (hh : ∀ f, s.neededRequest = some f → h f = h' f) :
    execOutcome h s.cur s.inovf s.input = execOutcome h' s.cur s.inovf s.input := by
  unfold execOutcome
  cases hd : decode s.cur with
  | error r => rfl
  | ok i =>
    cases ho : s.inovf with
    | true => rfl
    | false =>
      have hcmd : commandOutcome h i s.input = commandOutcome h' i s.input :=
        commandOutcome_congr fun f hf => hh f (State.neededRequest_eq_some.2 ⟨he, ho, i, hd, hf⟩)
      simp only [hcmd]

/-- With no request outstanding the engine commits Exec(CUR) under H: the response it used, if it needed
one, is H of its request. -/
theorem engineStep_of_hashRequest_none {s : State} (hinv : s.Inv) (he : s.eng = .run)
    (hr : s.hashRequest = none) :
    engineStep s = .next (s.commit (execOutcome Config.checksumHash s.cur s.inovf s.input)) := by
  rcases engineStep_cases s with ⟨hidle, -⟩ | ⟨-, -, h, hh, hstep⟩ | ⟨-, ⟨f, hf⟩, -⟩
  · simp [he] at hidle
  · rw [hstep, State.execOutcome_congr he]
    intro f hf
    cases hd : s.digest with
    | none => simp [State.hashRequest, hd, hf] at hr
    | some y =>
      obtain ⟨f', hf', rfl⟩ := hinv.digestAnswers y hd
      cases hf.symm.trans hf'
      exact hh f _ hf hd
  · simp [hr] at hf

theorem engineStep_of_execOutcome_fail {s : State} {k : ErrKind} (hinv : s.Inv) (he : s.eng = .run)
    (hr : s.hashRequest = none)
    (hk : execOutcome Config.checksumHash s.cur s.inovf s.input = .fail k) :
    engineStep s = .next (s.commit (.fail k)) := by
  rw [engineStep_of_hashRequest_none hinv he hr, hk]

/-- With a request outstanding the engine waits (60_exceptions.md R224). -/
theorem engineStep_of_hashRequest_some {s : State} {f : Bytes} (hr : s.hashRequest = some f) :
    engineStep s = .next s := by
  rcases engineStep_cases s with ⟨-, hstep⟩ | ⟨-, hnone, -⟩ | ⟨-, -, hstep⟩
  · exact hstep
  · simp [hr] at hnone
  · exact hstep

/-- A turn of the running engine that ends with ERR = 1 committed the failure that Exec(CUR) is. -/
theorem exists_fail_of_engineStep {s t : State} (hinv : s.Inv) (he : s.eng = .run)
    (hstep : engineStep s = .next t) (herr : t.err = true) :
    ∃ k, execOutcome Config.checksumHash s.cur s.inovf s.input = .fail k ∧ s.FailedWith t k := by
  cases hr : s.hashRequest with
  | some f =>
    cases (engineStep_of_hashRequest_some hr).symm.trans hstep
    simp [hinv.err_of_run he] at herr
  | none =>
    cases (engineStep_of_hashRequest_none hinv he hr).symm.trans hstep
    obtain ⟨k, hk⟩ := State.exists_fail_of_err_commit herr
    rw [hk]
    exact ⟨k, rfl, s.failedWith_commit_fail k⟩

/-- Settles O51: the turn commits Exec(CUR), and only the commit of a failure sets ERR. -/
theorem failureWritesOnlyStatus : Obligations.FailureWritesOnlyStatus := by
  intro s hinv he hturn
  have hinv' : s.takeEvent.Inv := hinv.withEvents _
  rw [step_of_engineTurn hturn]
  exact ⟨fun k hr hk => ⟨_, engineStep_of_execOutcome_fail hinv' he hr hk,
    State.failedWith_commit_fail _ k⟩, fun t => exists_fail_of_engineStep hinv' he⟩

end Sys2Proof.Machine
end

section
/-! PROOFS. Exceptions (60_exceptions.md R202, R222, R224): the input overflow that stops every command, the
idle block, and the collaborator that never answers. While a request is outstanding nothing moves but the
host's side of the block, OVR, the last value read and the schedule; an engine that is idle or has overflowed
has no request outstanding. -/
namespace Sys2Proof.Machine

/-! ### When a request is outstanding -/

/-- Only a running command without an input overflow makes a request (43_control.md R191, R195). -/
theorem State.run_of_hashRequest_some {s : State} {f : Bytes} (hr : s.hashRequest = some f) :
    s.eng = .run ∧ s.inovf = false := by
  obtain ⟨-, hneed⟩ := State.hashRequest_eq_some.1 hr
  obtain ⟨he, ho, -⟩ := State.neededRequest_eq_some.1 hneed
  exact ⟨he, ho⟩

theorem State.hashRequest_of_idle {s : State} (he : s.eng = .idle) : s.hashRequest = none :=
  Option.eq_none_iff_forall_ne_some.2 fun _ hr =>
    absurd (State.run_of_hashRequest_some hr).1 (by simp [he])

theorem State.hashRequest_of_inovf {s : State} (ho : s.inovf = true) : s.hashRequest = none :=
  Option.eq_none_iff_forall_ne_some.2 fun _ hr =>
    absurd (State.run_of_hashRequest_some hr).2 (by simp [ho])

/-! ### The collaborator that never answers (60_exceptions.md R224) -/

/-- The state with another OVR, another value last read and another schedule: what the host can move while
a command runs (43_control.md R198, 20_memory.md R58). -/
def State.withHostSide (ovr : Bool) (d : Word) (es : List Event) (s : State) : State :=
  { s with ovr := ovr, busData := d, events := es }

@[simp] theorem State.withHostSide_hashRequest (ovr : Bool) (d : Word) (es : List Event) (s : State) :
    (s.withHostSide ovr d es).hashRequest = s.hashRequest := rfl

/-- An access to a running block moves the host's side only. -/
theorem State.exists_performAccess_of_busy {s : State} (hb : s.busy = true) (a : Access) :
    ∃ ovr d, s.performAccess a = s.withHostSide ovr d s.events := by
  rcases s.performAccess_cases a with h | ⟨d, h⟩ | ⟨-, h⟩ | ⟨w, hidle, -⟩ | ⟨b, hidle, -⟩ | ⟨hidle, -⟩
  · exact ⟨s.ovr, s.busData, h⟩
  · exact ⟨s.ovr, d, h⟩
  · exact ⟨true, s.busData, h⟩
  all_goals simp [hb] at hidle

/-- While a request is outstanding, an event that neither answers it nor resets moves the host's side only. -/
theorem exists_performEvent_of_hashRequest_some {s : State} {f : Bytes} {e : Event}
    (hr : s.hashRequest = some f) (he : NoAnswerNoReset s.cfg e) :
    ∃ ovr d, performEvent e s = .next (s.withHostSide ovr d s.events) := by
  cases e with
  | host a =>
    have hb : s.busy = true := decide_eq_true (State.run_of_hashRequest_some hr).1
    obtain ⟨ovr, d, h⟩ := State.exists_performAccess_of_busy hb a
    exact ⟨ovr, d, (if_pos he).trans (congrArg _ h)⟩
  | strayResponse y => exact ⟨s.ovr, s.busData, rfl⟩
  | engine => exact ⟨s.ovr, s.busData, engineStep_of_hashRequest_some hr⟩
  | hashAnswer | resetInput => exact he.elim

/-- The same of a step, which takes its event; with none listed it is the waiting engine's turn. -/
theorem exists_step_of_hashRequest_some {s : State} {f : Bytes} (hr : s.hashRequest = some f)
    (hev : ∀ e ∈ s.events, NoAnswerNoReset s.cfg e) :
    ∃ ovr d, step s = .next (s.withHostSide ovr d s.events.tail) := by
  cases hes : s.events with
  | nil =>
    have hwait : engineStep (s.withEvents []) = .next (s.withEvents []) :=
      engineStep_of_hashRequest_some hr
    refine ⟨s.ovr, s.busData, ?_⟩
    rw [step_of_engineTurn (.inl hes), State.takeEvent_eq, hes]
    exact hwait
  | cons e es =>
    obtain ⟨ovr, d, h⟩ := exists_performEvent_of_hashRequest_some (s := s.withEvents es) (e := e) hr
      (hev e (by simp [hes]))
    refine ⟨ovr, d, ?_⟩
    rw [step, hes]
    exact h

/-- `t` is `s` up to the host's side, and nothing that it lists answers a request or resets. -/
def State.WaitsFrom (s t : State) : Prop :=
  ∃ ovr d es, t = s.withHostSide ovr d es ∧ ∀ e ∈ es, NoAnswerNoReset s.cfg e

/-- Every step of the waiting block is a next state, which waits as well. -/
theorem State.WaitsFrom.exists_step {s t : State} {f : Bytes} (hr : s.hashRequest = some f)
    (h : s.WaitsFrom t) : ∃ u, step t = .next u ∧ s.WaitsFrom u := by
  obtain ⟨ovr, d, es, rfl, hev⟩ := h
  obtain ⟨ovr', d', hstep⟩ := exists_step_of_hashRequest_some (s := s.withHostSide ovr d es) hr hev
  exact ⟨_, hstep, ovr', d', es.tail, rfl, fun e he => hev e (List.mem_of_mem_tail he)⟩

/-- Settles O58, by the steps of the waiting block: the host's side is no part of the request, the command,
the input or the results. -/
theorem unansweredRequestStaysBusy : Obligations.UnansweredRequestStaysBusy := by
  intro s f hr hev n
  have hs : s.WaitsFrom s := ⟨s.ovr, s.busData, s.events, rfl, hev⟩
  obtain ⟨t, hrun, ovr, d, es, rfl, -⟩ := run_keeps (fun _ => State.WaitsFrom.exists_step hr) n hs
  have hrt : (s.withHostSide ovr d es).hashRequest = some f := by simpa using hr
  exact ⟨_, hrun, decide_eq_true (State.run_of_hashRequest_some hrt).1, hrt, rfl, ⟨rfl, rfl, rfl⟩,
    ⟨rfl, rfl, rfl⟩⟩

/-! ### The idle block (60_exceptions.md R222) -/

theorem engineStep_of_idle {s : State} (he : s.eng = .idle) : engineStep s = .next s := by
  simp [engineStep, he]

/-- An event that reaches an idle block and is neither an access nor a reset changes nothing: no request is
outstanding that could be answered. -/
theorem performEvent_of_idle {e : Event} {s t : State} (hidle : s.eng = .idle)
    (h : performEvent e s = .next t) (hhost : ∀ a, e ≠ .host a) (hreset : e ≠ .resetInput) : t = s := by
  rcases performEvent_cases h with ⟨a, rfl, -⟩ | ⟨-, rfl⟩ | ⟨y, -, rfl⟩ | ⟨-, hstep⟩ | ⟨rfl, -⟩
  · exact absurd rfl (hhost a)
  · exact State.hashAnswer_of_hashRequest (State.hashRequest_of_idle hidle)
  · rfl
  · cases (engineStep_of_idle hidle).symm.trans hstep
    rfl
  · exact absurd rfl hreset

/-- Settles O56: an idle engine's turn and an idle block's event change nothing but the schedule. -/
theorem idleStateSurvives : Obligations.IdleStateSurvives := by
  intro s t hidle hstep hhost hreset
  rcases step_cases hstep with ⟨hes, h⟩ | ⟨e, es, hes, h⟩
  · cases (engineStep_of_idle hidle).symm.trans h
    rw [hes, List.tail_nil, State.withEvents_nil hes]
  · rw [hes, List.tail_cons]
    exact performEvent_of_idle hidle h (fun a he => hhost a es (he ▸ hes)) fun he =>
      hreset es (he ▸ hes)

/-! ### The input overflow (60_exceptions.md R202) -/

/-- Every command but CLRIN commits Fail(InputOverflow) while INOVF = 1 (60_exceptions.md R202). -/
theorem exec_of_inovf {i : Instr} {s : State} (hi : i ≠ .clrin) (ho : s.inovf = true) :
    exec i s = .next (s.commit (.fail .inputOverflow)) := by
  simp [exec_eq_runCommand hi, State.runCommand, ho]

/-- Settles O48: the command commits Fail(InputOverflow), and an overflowed input makes no request. -/
theorem inputOverflowStopsEveryCommand : Obligations.InputOverflowStopsEveryCommand := fun s _ ho hi =>
  ⟨⟨_, exec_of_inovf hi ho, State.failedWith_commit_fail s _⟩, State.hashRequest_of_inovf ho⟩

end Sys2Proof.Machine
end

section
/-! PROOFS. The encoding (30_encoding.md R80 to R88): the fields decide what a word decodes to, each command has
the fields of its word, and a word has the fields of the row it matches. -/
namespace Sys2Proof

/-! ### Decoding an encoded command -/

/-- The word of a form with a version operand decodes to the command with the fixed part's OP and VCHK. -/
theorem decode_versionedWord {fixed : Word} {v : Nat} {i : Instr} (hf : fixed.toNat < 256) (hv : v ≤ 255)
    (h0 : rsv0Field fixed = 0) (hi : i.fields = (opField fixed, vchkField fixed, v)) :
    decode (versionedWord fixed v) = .ok i := by
  obtain ⟨hop, hc, hr0, hver, hr1⟩ := fields_versionedWord hf hv
  rw [decode_eq_ok, hop, hc, hr0, hver, hi]
  exact ⟨hr1, h0, rfl⟩

/-- 30_encoding.md R84, R87. -/
theorem decode_encode {i : Instr} (hw : i.wf = true) : decode (encode i) = .ok i := by
  cases i with
  | b58enc | b58dec | csdec | unframe | clrin => rfl
  | csencV v | csdecV v | csvalV v | frameV v | unframeV v =>
    exact decode_versionedWord (by decide) (of_decide_eq_true hw) rfl rfl

/-- Settles O1: each form's word has the fields of the command. -/
theorem decodeOfEncodeIsTheCommand : Obligations.DecodeOfEncodeIsTheCommand :=
  fun _ => decode_encode

/-! ### One word a command -/

theorem Instr.wf_of_fields {i : Instr} (h : i.fields.2.2 ≤ 255) : i.wf = true := by
  cases i with
  | b58enc | b58dec | csdec | unframe | clrin => rfl
  | csencV v | csdecV v | csvalV v | frameV v | unframeV v => exact decide_eq_true h

/-- A decoded version operand is the byte VER (30_encoding.md R82). -/
theorem toNat_verField_of_decode {w : Word} {i : Instr} (h : decode w = .ok i) :
    (verField w).toNat = i.fields.2.2 :=
  congrArg (·.2.2) (decode_eq_ok.1 h).2.2

theorem wf_of_decode {w : Word} {i : Instr} (h : decode w = .ok i) : i.wf = true := by
  apply Instr.wf_of_fields
  rw [← toNat_verField_of_decode h]
  exact Nat.le_of_lt_succ (verField w).isLt

/-- Two words that decode to one command have the same fields. -/
theorem eq_of_decode_eq {w w' : Word} {i : Instr} (h : decode w = .ok i) (h' : decode w' = .ok i) :
    w = w' := by
  obtain ⟨hr1, hr0, hf⟩ := decode_eq_ok.1 h
  obtain ⟨hr1', hr0', hf'⟩ := decode_eq_ok.1 h'
  obtain ⟨hop, hc, hver⟩ : opField w = opField w' ∧ vchkField w = vchkField w' ∧
      (verField w).toNat = (verField w').toNat := by
    simpa using hf.trans hf'.symm
  exact word_ext hop hc (hr0.trans hr0'.symm) (BitVec.eq_of_toNat_eq hver) (hr1.trans hr1'.symm)

theorem encode_of_decode {w : Word} {i : Instr} (h : decode w = .ok i) : encode i = w :=
  eq_of_decode_eq (decode_encode (wf_of_decode h)) h

/-- Settles O2: the command's own word decodes to it too, and it is the only one. -/
theorem decodedCommandHasOneWord : Obligations.DecodedCommandHasOneWord := by
  intro w i h
  refine ⟨wf_of_decode h, encode_of_decode h, fun v hi => ?_⟩
  have hv : (verField w).toNat = v := by
    rw [toNat_verField_of_decode h]
    rcases hi with rfl | rfl | rfl | rfl | rfl <;> rfl
  refine ⟨?_, by rw [← hv, toNat_verField]⟩
  rw [← hv, Machine.versionByte, BitVec.ofNat_toNat, BitVec.setWidth_eq]

/-! ### The legality table -/

/-- Every form's row is in the table, and its word matches it (30_encoding.md R84). -/
theorem row_of_wf (i : Instr) : Laws.EncodingInTable.Statement i := by
  cases i with
  | b58enc => exact Laws.EncodingInTable.b58enc
  | b58dec => exact Laws.EncodingInTable.b58dec
  | csencV v => exact Laws.EncodingInTable.csencV v
  | csdec => exact Laws.EncodingInTable.csdec
  | csdecV v => exact Laws.EncodingInTable.csdecV v
  | csvalV v => exact Laws.EncodingInTable.csvalV v
  | frameV v => exact Laws.EncodingInTable.frameV v
  | unframe => exact Laws.EncodingInTable.unframe
  | unframeV v => exact Laws.EncodingInTable.unframeV v
  | clrin => exact Laws.EncodingInTable.clrin

/-- The mask of a row with a version operand leaves every field but VER alone. -/
theorem fields_and_mask (w : Word) :
    opField (w &&& 0xFFFF00FF#32) = opField w ∧ vchkField (w &&& 0xFFFF00FF#32) = vchkField w ∧
    rsv0Field (w &&& 0xFFFF00FF#32) = rsv0Field w ∧ rsv1Field (w &&& 0xFFFF00FF#32) = rsv1Field w := by
  exact ⟨(BitVec.extractLsb'_and ..).trans BitVec.and_allOnes,
    (BitVec.getLsbD_and ..).trans (Bool.and_true _),
    (BitVec.extractLsb'_and ..).trans BitVec.and_allOnes,
    (BitVec.extractLsb'_and ..).trans BitVec.and_allOnes⟩

/-- A word that matches a row with a version operand decodes to that row's form with VER as its operand. -/
theorem decode_of_and_mask {w p : Word} {i : Instr} (h : w &&& 0xFFFF00FF#32 = p)
    (h1 : rsv1Field p = 0) (h0 : rsv0Field p = 0)
    (hi : i.fields = (opField p, vchkField p, (verField w).toNat)) : decode w = .ok i := by
  obtain ⟨hop, hc, hr0, hr1⟩ := fields_and_mask w
  rw [h] at hop hc hr0 hr1
  rw [decode_eq_ok, hi, ← hop, ← hc, ← hr0, ← hr1]
  exact ⟨h1, h0, rfl⟩

/-- A row without an operand is matched by its own word only. -/
theorem decode_of_full_mask {w p : Word} {i : Instr} (h : w &&& 0xFFFFFFFF#32 = p)
    (hp : decode p = .ok i) : decode w = .ok i := by
  rwa [← h, show 0xFFFFFFFF#32 = BitVec.allOnes 32 from rfl, BitVec.and_allOnes] at hp

/-- A word that matches a row decodes to a command of that row's form (30_encoding.md R84, R87). -/
theorem decode_of_matches {w : Word} {r : OpcodeRow} (hr : r ∈ opcodeTable) (h : r.Matches w) :
    ∃ i, decode w = .ok i ∧ i.row = r := by
  simp only [opcodeTable, List.mem_cons, List.not_mem_nil, or_false] at hr
  rcases hr with rfl | rfl | rfl | rfl | rfl | rfl | rfl | rfl | rfl | rfl
  · exact ⟨.b58enc, decode_of_full_mask h rfl, rfl⟩
  · exact ⟨.b58dec, decode_of_full_mask h rfl, rfl⟩
  · exact ⟨.csencV _, decode_of_and_mask h rfl rfl rfl, rfl⟩
  · exact ⟨.csdec, decode_of_full_mask h rfl, rfl⟩
  · exact ⟨.csdecV _, decode_of_and_mask h rfl rfl rfl, rfl⟩
  · exact ⟨.csvalV _, decode_of_and_mask h rfl rfl rfl, rfl⟩
  · exact ⟨.frameV _, decode_of_and_mask h rfl rfl rfl, rfl⟩
  · exact ⟨.unframe, decode_of_full_mask h rfl, rfl⟩
  · exact ⟨.unframeV _, decode_of_and_mask h rfl rfl rfl, rfl⟩
  · exact ⟨.clrin, decode_of_full_mask h rfl, rfl⟩

/-- Settles O3: a decoded word is its command's own, which matches the row, and two rows that a word matches
are the row of the one command it decodes to. -/
theorem legalExactlyWhenOneRowMatches : Obligations.LegalExactlyWhenOneRowMatches := by
  refine ⟨fun w i h => ?_, fun w r => decode_of_matches, fun w r r' hr hr' h h' => ?_⟩
  · have hrow := row_of_wf i (wf_of_decode h)
    rwa [encode_of_decode h] at hrow
  · obtain ⟨i, hi, rfl⟩ := decode_of_matches hr h
    obtain ⟨j, hj, rfl⟩ := decode_of_matches hr' h'
    cases hi.symm.trans hj
    rfl

/-! ### Illegal words -/

/-- The legal values of OP, VCHK and VER together (30_encoding.md R84). -/
theorem exists_fields_eq_iff (op : BitVec 4) (c : Bool) (v : Nat) : (∃ i : Instr, (op, c, v) = i.fields) ↔
    (c = false ∧ v = 0 ∧ op ∈ [0x1#4, 0x2#4, 0x4#4, 0x7#4, 0x8#4]) ∨
    (c = false ∧ op ∈ [0x3#4, 0x6#4]) ∨ (c = true ∧ op ∈ [0x4#4, 0x5#4, 0x7#4]) := by
  constructor
  · rintro ⟨i, hi⟩
    cases i <;> cases hi <;> simp
  · simp only [List.mem_cons, List.not_mem_nil, or_false]
    rintro (⟨rfl, rfl, rfl | rfl | rfl | rfl | rfl⟩ | ⟨rfl, rfl | rfl⟩ | ⟨rfl, rfl | rfl | rfl⟩)
    exacts [⟨.b58enc, rfl⟩, ⟨.b58dec, rfl⟩, ⟨.csdec, rfl⟩, ⟨.unframe, rfl⟩, ⟨.clrin, rfl⟩,
      ⟨.csencV v, rfl⟩, ⟨.frameV v, rfl⟩, ⟨.csdecV v, rfl⟩, ⟨.csvalV v, rfl⟩, ⟨.unframeV v, rfl⟩]

/-- The other values, as 30_encoding.md R85 lists them; of VER only whether it is 0 matters. -/
theorem not_legalFields_iff (op : BitVec 4) (c z : Bool) :
    ¬((c = false ∧ z = true ∧ op ∈ [0x1#4, 0x2#4, 0x4#4, 0x7#4, 0x8#4]) ∨
      (c = false ∧ op ∈ [0x3#4, 0x6#4]) ∨ (c = true ∧ op ∈ [0x4#4, 0x5#4, 0x7#4])) ↔
    ((op = 0x0 ∨ 0x9 ≤ op.toNat) ∨ (c = true ∧ op ∈ [0x1#4, 0x2#4, 0x3#4, 0x6#4, 0x8#4]) ∨
      (c = false ∧ op = 0x5) ∨ (c = false ∧ ¬z = true ∧ op ∈ [0x1#4, 0x2#4, 0x4#4, 0x7#4, 0x8#4]) ∨
      (¬z = true ∧ op ∈ [0x1#4, 0x2#4, 0x8#4])) := by
  have hlt := op.isLt
  simp only [← BitVec.toNat_inj, List.mem_cons, List.not_mem_nil, or_false, BitVec.ofNat_eq_ofNat,
    BitVec.toNat_ofNat, Nat.reducePow, Nat.reduceMod]
  cases c <;> cases z <;> simp <;> omega

theorem exists_decode_error_iff (w : Word) : (∃ r, decode w = .error r) ↔
    ¬(rsv1Field w = 0 ∧ rsv0Field w = 0 ∧
      ∃ i : Instr, (opField w, vchkField w, (verField w).toNat) = i.fields) := by
  have hok : (∃ i, decode w = .ok i) ↔ rsv1Field w = 0 ∧ rsv0Field w = 0 ∧
      ∃ i : Instr, (opField w, vchkField w, (verField w).toNat) = i.fields := by
    simp only [decode_eq_ok, exists_and_left]
  rw [← hok]
  cases decode w <;> simp

/-- Settles O4: a word is refused when its reserved fields are not 0 or its other fields are none of the
legal ones. -/
theorem illegalWordsAreTheListedOnes : Obligations.IllegalWordsAreTheListedOnes := by
  intro w
  have hver : (verField w).toNat = 0 ↔ decide (verField w = 0) = true := by
    rw [decide_eq_true_iff, ← BitVec.toNat_inj]
    rfl
  have hrest := not_legalFields_iff (opField w) (vchkField w) (decide (verField w = 0))
  rw [exists_decode_error_iff, exists_fields_eq_iff, hver, ← and_assoc, not_and_or, hrest,
    decide_eq_true_iff, or_left_comm, not_and_or, or_comm (a := ¬ rsv1Field w = 0)]
  exact Iff.rfl

/-- Settles O5, word by word. -/
theorem sampleWordsDecode : Obligations.SampleWordsDecode := by
  refine ⟨rfl, rfl, rfl, rfl, rfl, rfl, rfl, rfl, rfl, ?_⟩
  simp only [List.forall_mem_cons, List.not_mem_nil, false_implies, implies_true, and_true]
  exact ⟨⟨_, rfl⟩, ⟨_, rfl⟩, ⟨_, rfl⟩, ⟨_, rfl⟩, ⟨_, rfl⟩, ⟨_, rfl⟩, ⟨_, rfl⟩, ⟨_, rfl⟩, ⟨_, rfl⟩⟩

end Sys2Proof
end

section
/-! PROOFS. STATUS, the error codes and the registers (10_state.md R29, R35, 20_memory.md R51, R52,
60_exceptions.md R200). -/
namespace Sys2Proof.Machine

/-! ### The error codes -/

theorem ErrKind.code_injective : Function.Injective ErrKind.code := by
  intro k k' h
  cases k <;> cases k' <;> revert h <;> decide

theorem ErrKind.code_ne_zero (k : ErrKind) : k.code ≠ 0 := by
  cases k <;> decide

theorem ErrKind.toNat_code_le (k : ErrKind) : k.code.toNat ≤ 7 := by
  cases k <;> decide

/-! ### STATUS -/

theorem getLsbD_eq_iff {w : Word} {k : Nat} {b : Bool} : w.getLsbD k = b ↔ w.toNat / 2 ^ k % 2 = b.toNat := by
  rw [BitVec.getLsbD, Nat.testBit_eq_decide_div_mod_eq]
  cases b <;> simp

/-- The bits and the code of STATUS, read off its value as a number (10_state.md R29). -/
theorem State.status_fields (s : State) :
    s.status.getLsbD 0 = s.busy ∧ s.status.getLsbD 1 = s.done ∧ s.status.getLsbD 2 = s.err ∧
    s.status.getLsbD 3 = s.ovr ∧ s.status.extractLsb' 4 4 = s.errcode ∧ s.status.getLsbD 8 = s.valid ∧
    s.status.getLsbD 9 = s.cflag ∧ s.status.getLsbD 10 = s.inovf ∧ s.status.toNat < 2 ^ 11 := by
  have hN := s.toNat_status
  have := s.busy.toNat_le
  have := s.done.toNat_le
  have := s.err.toNat_le
  have := s.ovr.toNat_le
  have := s.errcode.isLt
  have := s.valid.toNat_le
  have := s.cflag.toNat_le
  have := s.inovf.toNat_le
  simp only [getLsbD_eq_iff]
  refine ⟨?_, ?_, ?_, ?_, BitVec.eq_of_toNat_eq ?_, ?_, ?_, ?_, ?_⟩
  case refine_5 =>
    rw [BitVec.extractLsb'_toNat, Nat.shiftRight_eq_div_pow]
    omega
  all_goals omega

/-- Settles O17: each field of STATUS at its place, nothing above them, and the codes one by one. -/
theorem statusLayoutAndErrorCodes : Obligations.StatusLayoutAndErrorCodes := by
  refine ⟨fun s => ?_, rfl, rfl, rfl, rfl, rfl, rfl, rfl, fun k k' =>
    ⟨fun h => ErrKind.code_injective h, k.code_ne_zero, k.toNat_code_le⟩⟩
  obtain ⟨hbusy, hdone, herr, hovr, hcode, hvalid, hcflag, hinovf, hlt⟩ := s.status_fields
  refine ⟨by rw [hbusy, State.busy, decide_eq_true_iff], hdone, herr, hovr, hcode, hvalid, hcflag, hinovf,
    fun k hk => Nat.testBit_lt_two_pow (hlt.trans_le (Nat.pow_le_pow_right (by decide) hk))⟩

/-! ### The registers -/

/-- CAPS holds both capacities whole at legal parameters (10_state.md R35). -/
theorem toNat_capsWord {c : Config} (hc : c.Legal) :
    (capsWord c).toNat = c.capIn + 2 ^ 16 * c.capOut := by
  obtain ⟨-, hcap, -⟩ := hc
  refine (BitVec.toNat_ofNat ..).trans (Nat.mod_eq_of_lt ?_)
  unfold Config.capOut
  omega

/-- Settles O18: a read at a register's offset is `readRegister`, which zero-extends. -/
theorem registerReadsAreTheMap : Obligations.RegisterReadsAreTheMap := fun s =>
  ⟨rfl, rfl, BitVec.toNat_setWidth_of_le (b := s.inLen) (by decide), rfl,
    BitVec.toNat_setWidth_of_le (b := s.outLen) (by decide),
    BitVec.toNat_setWidth_of_le (b := s.versionOut) (by decide), toNat_capsWord⟩

end Sys2Proof.Machine
end

section
/-! PROOFS. The step (43_control.md R199, 70_reset_and_hazards.md R230): where it stops, what the reset input, a
read and an answer do, the engine's turn; and the invariant. A commit keeps the invariant when its outcome fits:
its result has at most CAP_OUT bytes, and it reports InputOverflow only while INOVF = 1. -/
namespace Sys2Proof.Machine

/-! ### Where a step stops -/

theorem exists_engineStep (s : State) : ∃ t, engineStep s = .next t := by
  rcases engineStep_cases s with ⟨-, h⟩ | ⟨-, -, hash, -, h⟩ | ⟨-, -, h⟩ <;> exact ⟨_, h⟩

/-- An event stops the machine only as an access outside the region (log entry 9). -/
theorem performEvent_next_or_fault (e : Event) (s : State) : (∃ t, performEvent e s = .next t) ∨
    ∃ a, e = .host a ∧ ¬ s.cfg.inRegion a.address ∧
      performEvent e s = .fault (.outsideRegion a.address) := by
  cases e with
  | host a =>
    by_cases hr : s.cfg.inRegion a.address
    · exact .inl ⟨_, if_pos hr⟩
    · exact .inr ⟨a, rfl, hr, if_neg hr⟩
  | engine => exact .inl (exists_engineStep s)
  | hashAnswer | strayResponse _ | resetInput => exact .inl ⟨_, rfl⟩

theorem step_next_or_fault (s : State) : (∃ t, step s = .next t) ∨
    ∃ a es, s.events = .host a :: es ∧ ¬ s.cfg.inRegion a.address ∧
      step s = .fault (.outsideRegion a.address) := by
  unfold step
  cases hes : s.events with
  | nil => exact .inl (exists_engineStep s)
  | cons e es =>
    rcases performEvent_next_or_fault e (s.withEvents es) with h | ⟨a, rfl, hr, h⟩
    · exact .inl h
    · exact .inr ⟨a, es, rfl, hr, h⟩

/-- An access outside the region is not the block's. -/
theorem step_of_outside {s : State} {a : Access} {es : List Event} (he : s.events = .host a :: es)
    (hr : ¬ s.cfg.inRegion a.address) : step s = .fault (.outsideRegion a.address) := by
  rw [step, he]
  exact if_neg hr

/-- Settles O12: a step is a next state or the one fault. -/
theorem stepStopsOnlyOutsideTheRegion : Obligations.StepStopsOnlyOutsideTheRegion := by
  intro s
  have hfault : ∀ r, (∃ a es, s.events = .host a :: es ∧ ¬ s.cfg.inRegion a.address ∧
      r = .outsideRegion a.address) → step s = .fault r := by
    rintro r ⟨a, es, he, hr, rfl⟩
    exact step_of_outside he hr
  rcases step_next_or_fault s with ⟨t, h⟩ | ⟨a, es, he, hr, h⟩
  · exact ⟨fun r => by simp [h], fun r => ⟨fun hr => by simp [h] at hr, hfault r⟩⟩
  · refine ⟨fun r => by simp [h], fun r => ⟨fun hs => ?_, hfault r⟩⟩
    cases h.symm.trans hs
    exact ⟨a, es, he, hr, rfl⟩

/-! ### Reset, reads, answers and the engine's turn -/

theorem step_resetInput {s : State} {es : List Event} (he : s.events = .resetInput :: es) :
    step s = .next (s.withEvents es).assertReset := by
  rw [step, he]
  rfl

/-- Settles O6: the reset input leaves the reset values. -/
theorem resetInputGivesResetValues : Obligations.ResetInputGivesResetValues := fun _ _ he =>
  ⟨_, step_resetInput he, rfl, rfl, rfl, rfl, rfl, rfl, rfl, rfl, rfl, rfl, rfl, rfl, rfl⟩

/-- Settles O7, by evaluation. -/
theorem resetStateReadsAsSpecified : Obligations.ResetStateReadsAsSpecified := by
  unfold Obligations.ResetStateReadsAsSpecified
  decide

/-- Settles O16: a read is what the host then holds of it. -/
theorem readsChangeNothing : Obligations.ReadsChangeNothing := fun _ _ _ _ ho he => step_read ho he

theorem step_hashAnswer {s : State} {es : List Event} (he : s.events = .hashAnswer :: es) :
    step s = .next (s.withEvents es).hashAnswer := by
  rw [step, he]
  rfl

theorem State.hashAnswer_of_hashRequest_some {s : State} {f : Bytes} (hr : s.hashRequest = some f) :
    s.hashAnswer = s.receiveDigest (Config.checksumHash f) := by
  rw [State.hashAnswer, hr]

/-- Settles O38: the collaborator's step is its answer, with a request and without one. -/
theorem collaboratorAnswersWithH : Obligations.CollaboratorAnswersWithH := by
  intro s es he
  rw [step_hashAnswer he]
  exact ⟨fun f hf => congrArg _ (State.hashAnswer_of_hashRequest_some (s := s.withEvents es) hf),
    fun hr => congrArg _ (State.hashAnswer_of_hashRequest (s := s.withEvents es) hr)⟩

theorem engineStep_of_decode_ok {s : State} {i : Instr} (he : s.eng = .run) (hd : decode s.cur = .ok i) :
    engineStep s = exec i s := by
  simp [engineStep, he, hd]

/-- Settles O10: the engine's turn is the engine's step, on the state without the event. -/
theorem stepExecutesTheDecodedCommand : Obligations.StepExecutesTheDecodedCommand := by
  intro s i he hd
  refine ⟨fun hes => ?_, fun es hes => ?_⟩
  · rw [step_of_engineTurn (.inl hes), State.takeEvent_eq, hes, List.tail_nil, State.withEvents_nil hes,
      engineStep_of_decode_ok he hd]
  · rw [step_of_engineTurn (.inr ⟨es, hes⟩), State.takeEvent_eq, hes, List.tail_cons]
    exact engineStep_of_decode_ok he hd

@[simp] theorem State.hashAnswer_eng (s : State) : s.hashAnswer.eng = s.eng := by
  rcases s.hashAnswer_cases with h | ⟨f, -, -, h⟩ <;> rw [h]
  rfl

@[simp] theorem State.hashAnswer_cur (s : State) : s.hashAnswer.cur = s.cur := by
  rcases s.hashAnswer_cases with h | ⟨f, -, -, h⟩ <;> rw [h]
  rfl

theorem decodeTableWord_encode {i : Instr} (hw : i.wf = true) :
    decodeTableWord 32 (encode i).toNat = some i := by
  rw [decodeTableWord, if_pos (Nat.le_refl _), Nat.mod_eq_of_lt (encode i).isLt, BitVec.ofNat_toNat,
    BitVec.setWidth_eq, decode_encode hw]
  rfl

/-- A word placed with no event listed: accepted, its request answered, and the engine's turn next. -/
theorem State.withFetchWord_toNat {s : State} (he : s.events = []) (w : Word) :
    s.withFetchWord 32 w.toNat = (s.accept w).hashAnswer.withEvents [] := by
  rw [State.withFetchWord, Nat.mod_eq_of_lt w.isLt, BitVec.ofNat_toNat, BitVec.setWidth_eq,
    State.placeCommand, he]
  rfl

/-- Settles O11: the placed word is in CUR, ENG is RUN, and no event is listed. -/
theorem placedCommandIsExecutedNext : Obligations.PlacedCommandIsExecutedNext := by
  intro s i hw he
  refine ⟨decodeTableWord_encode hw, ?_⟩
  rw [State.withFetchWord_toNat he]
  exact (stepExecutesTheDecodedCommand _ i (by simp) (by simp [decode_encode hw])).1 rfl

/-! ### Outcomes that fit -/

/-- An outcome that fits in a block with CAP_OUT `cap`: its result does, and InputOverflow is reported while
INOVF = 1 only. -/
def CmdOutcome.Fits (cap : Nat) (inovf : Bool) : CmdOutcome → Prop
  | .out bs => bs.length ≤ cap
  | .decoded _ p => p.length ≤ cap
  | .valid _ => True
  | .clearIn => True
  | .fail k => k = .inputOverflow → inovf = true

theorem csEncode_eq_error {h : Bytes → Bytes} {v : Byte} {p : Bytes} {k : ErrKind} :
    csEncode h v p = .error k ↔ frameBuild h v p = .error k := by
  unfold csEncode
  cases frameBuild h v p <;> simp

/-- Unframe's errors from 5 bytes on (41_framer.md R136). -/
theorem error_of_unframeBytes {h : Bytes → Bytes} {ver : Option Byte} {eb : Bytes} {k : ErrKind}
    (hlen : 5 ≤ eb.length) (he : unframeBytes h ver eb = .error k) :
    k = .hashFault ∨ k = .checksumMismatch ∨ k = .versionMismatch := by
  cases hc : checksum h (framePart eb) with
  | error k' =>
    obtain ⟨-, rfl⟩ := checksum_eq_error.1 hc
    cases (unframeBytes_of_checksum_error hlen hc).symm.trans he
    exact .inl rfl
  | ok c =>
    rw [unframeBytes_of_checksum_ok hlen hc] at he
    split at he
    · obtain ⟨b, p, hf⟩ : ∃ b p, framePart eb = b :: p :=
        List.exists_cons_of_length_pos (by rw [length_framePart]; omega)
      cases hv : versionOk ver b <;> simp [hf, stripFrame, hv] at he
      exact .inr (.inr he.symm)
    · cases he
      exact .inr (.inl rfl)

theorem unframeBytes_ne_inputOverflow (h : Bytes → Bytes) (ver : Option Byte) (eb : Bytes) :
    unframeBytes h ver eb ≠ .error .inputOverflow := by
  by_cases hlen : eb.length < 5
  · simp [unframeBytes_of_lt hlen]
  · exact fun he => by simpa using error_of_unframeBytes (Nat.not_lt.1 hlen) he

theorem csDecode_of_b58Decode {s eb : Bytes} (hs : b58Decode s = .ok eb) (h : Bytes → Bytes)
    (ver : Option Byte) : csDecode h ver s = unframeBytes h ver eb := by
  rw [csDecode, hs]

theorem csDecode_of_b58Decode_error {s : Bytes} {k : ErrKind} (hs : b58Decode s = .error k)
    (h : Bytes → Bytes) (ver : Option Byte) : csDecode h ver s = .error k := by
  rw [csDecode, hs]

theorem csDecode_ne_inputOverflow (h : Bytes → Bytes) (ver : Option Byte) (s : Bytes) :
    csDecode h ver s ≠ .error .inputOverflow := by
  cases hs : b58Decode s with
  | ok eb => exact csDecode_of_b58Decode hs h ver ▸ unframeBytes_ne_inputOverflow h ver eb
  | error k => simp [csDecode_of_b58Decode_error hs, b58Decode_eq_error hs]

/-- A decoded payload is at least 5 bytes shorter than its string. -/
theorem length_csDecode_le {h : Bytes → Bytes} {ver : Option Byte} {s : Bytes} {r : Byte × Bytes}
    (hr : csDecode h ver s = .ok r) : r.2.length ≤ s.length := by
  cases hs : b58Decode s with
  | ok eb =>
    rw [csDecode_of_b58Decode hs] at hr
    have hp := length_unframeBytes hr
    have heb := length_b58Decode_le hs
    omega
  | error k => simp [csDecode_of_b58Decode_error hs] at hr

/-- CSVAL answers, or it reports HashFault (42_coinstring.md R163, R164). -/
theorem outcomeOfValidate_cases (r : Except ErrKind (Byte × Bytes)) :
    (∃ b, outcomeOfValidate r = .valid b) ∨ outcomeOfValidate r = .fail .hashFault := by
  cases r with
  | ok q => exact .inl ⟨true, rfl⟩
  | error k =>
    cases k with
    | hashFault => exact .inr rfl
    | invalidCharacter | tooShort | checksumMismatch | versionMismatch | illegalCommand | inputOverflow =>
      exact .inl ⟨false, rfl⟩

section
variable {cap : Nat} {inovf : Bool}

theorem outcomeOfBytes_fits {r : Except ErrKind Bytes} (hok : ∀ bs, r = .ok bs → bs.length ≤ cap)
    (herr : r ≠ .error .inputOverflow) : (outcomeOfBytes r).Fits cap inovf := by
  cases r with
  | ok bs => exact hok bs rfl
  | error k => exact fun hk => absurd (congrArg _ hk) herr

theorem outcomeOfDecoded_fits {r : Except ErrKind (Byte × Bytes)}
    (hok : ∀ q, r = .ok q → q.2.length ≤ cap) (herr : r ≠ .error .inputOverflow) :
    (outcomeOfDecoded r).Fits cap inovf := by
  cases r with
  | ok q => exact hok q rfl
  | error k => exact fun hk => absurd (congrArg _ hk) herr

theorem outcomeOfValidate_fits (r : Except ErrKind (Byte × Bytes)) :
    (outcomeOfValidate r).Fits cap inovf := by
  rcases outcomeOfValidate_cases r with ⟨b, h⟩ | h <;> rw [h]
  · trivial
  · exact nofun

/-- A command's result fits where twice its input and 5 bytes do (40_base58.md R118). -/
theorem commandOutcome_fits (h : Bytes → Bytes) (i : Instr) {inp : Bytes}
    (hcap : 2 * (inp.length + 5) ≤ cap) : (commandOutcome h i inp).Fits cap inovf := by
  cases i with
  | b58enc =>
    have hlen := length_b58Encode_le inp
    exact show (b58Encode inp).length ≤ cap by omega
  | b58dec =>
    refine outcomeOfBytes_fits (fun bs hbs => ?_) fun he => by simpa using b58Decode_eq_error he
    have hlen := length_b58Decode_le hbs
    omega
  | csencV v =>
    refine outcomeOfBytes_fits (fun bs hbs => (length_csEncode_le hbs).trans hcap) fun he => ?_
    simpa using (frameBuild_eq_error.1 (csEncode_eq_error.1 he)).2
  | frameV v =>
    refine outcomeOfBytes_fits (fun bs hbs => ?_) fun he => by simpa using (frameBuild_eq_error.1 he).2
    have hlen := length_frameBuild hbs
    omega
  | csdec | csdecV v =>
    refine outcomeOfDecoded_fits (fun q hq => ?_) (csDecode_ne_inputOverflow _ _ _)
    have hlen := length_csDecode_le hq
    omega
  | unframe | unframeV v =>
    refine outcomeOfDecoded_fits (fun q hq => ?_) (unframeBytes_ne_inputOverflow _ _ _)
    have hlen := length_unframeBytes hq
    omega
  | csvalV v => exact outcomeOfValidate_fits _
  | clrin => trivial

theorem execOutcome_fits (h : Bytes → Bytes) (w : Word) {inp : Bytes} (hcap : 2 * (inp.length + 5) ≤ cap) :
    (execOutcome h w inovf inp).Fits cap inovf := by
  unfold execOutcome
  cases decode w with
  | error r => exact fun hk => nomatch hk
  | ok i =>
    by_cases hi : i = .clrin
    · simp [hi, CmdOutcome.Fits]
    · cases inovf with
      | true => simp [hi, CmdOutcome.Fits]
      | false => simpa [hi] using commandOutcome_fits h i hcap

end

/-! ### The invariant, operation by operation -/

/-- The reset values meet the invariant at every legal configuration. -/
theorem State.inv_resetOf {c : Config} (hc : c.Legal) : (State.resetOf c).Inv where
  cfgLegal := hc
  inBufWf := Memory.wf_nil
  inBufBound := nofun
  outBufWf := Memory.wf_nil
  outBufBound := nofun
  inLenBound := Nat.zero_le _
  outLenBound := Nat.zero_le _
  inovfFull := nofun
  notBusyDone := nofun
  errIffCode := by simp [State.resetOf]
  errcodeLegal := Nat.zero_le _
  clearBeforeDone := fun _ => ⟨rfl, rfl, rfl⟩
  clearOnError := nofun
  overflowCode := nofun
  cflagShape := nofun
  digestAnswers := nofun

/-- Settles O8: the default configuration is legal. -/
theorem resetMeetsTheInvariant : Obligations.ResetMeetsTheInvariant :=
  State.inv_resetOf (by decide)

section
variable {s : State} (h : s.Inv)
include h

theorem State.Inv.observe (d : Word) : (s.observe d).Inv := { h with }

theorem State.Inv.dropWrite : s.dropWrite.Inv := { h with }

theorem State.Inv.assertReset : s.assertReset.Inv :=
  ((State.inv_resetOf h.cfgLegal).observe s.busData).withEvents s.events

theorem State.Inv.receiveDigest {f : Bytes} (hf : s.neededRequest = some f) :
    (s.receiveDigest (Config.checksumHash f)).Inv :=
  { h with digestAnswers := fun _ hy => ⟨f, hf, (Option.some.inj hy).symm⟩ }

theorem State.Inv.hashAnswer : s.hashAnswer.Inv := by
  rcases s.hashAnswer_cases with ha | ⟨f, -, hf, ha⟩ <;> rw [ha]
  · exact h
  · exact h.receiveDigest hf

theorem State.Inv.accept (w : Word) : (s.accept w).Inv :=
  { h with
    notBusyDone := by simp
    errIffCode := by simp
    errcodeLegal := by simp
    clearBeforeDone := by simp
    clearOnError := by simp
    overflowCode := by simp
    cflagShape := by simp
    digestAnswers := by simp }

/-- An idle block holds no response: it would be one to the running command's request. -/
theorem State.Inv.digest_of_idle (hb : s.busy = false) : s.digest = none := by
  rw [Option.eq_none_iff_forall_ne_some]
  intro y hy
  obtain ⟨f, hf, -⟩ := h.digestAnswers y hy
  simp [State.busy, (State.neededRequest_eq_some.1 hf).1] at hb

theorem State.Inv.storeInput (hb : s.busy = false) (hroom : s.inLen.toNat < s.cfg.capIn) (b : Byte) :
    (s.storeInput b).Inv := by
  obtain ⟨-, hcap, -⟩ := h.cfgLegal
  have hlen : (s.storeInput b).inLen.toNat = s.inLen.toNat + 1 :=
    State.toNat_storeInput_inLen (by omega) b
  refine { h with
    inBufWf := Memory.wf_write h.inBufWf _ _
    inBufBound := fun c hc => ?_
    inLenBound := hlen.symm ▸ hroom
    inovfFull := fun ho => absurd (h.inovfFull ho) (Nat.ne_of_lt hroom)
    digestAnswers := by simp [h.digest_of_idle hb] }
  rcases Memory.mem_write hc with hc | rfl
  · exact h.inBufBound c hc
  · exact hroom

theorem State.Inv.overflowInput (hb : s.busy = false) (hfull : s.cfg.capIn ≤ s.inLen.toNat) :
    s.overflowInput.Inv :=
  { h with
    inovfFull := fun _ => Nat.le_antisymm h.inLenBound hfull
    overflowCode := fun _ => rfl
    digestAnswers := by simp [h.digest_of_idle hb] }

theorem State.Inv.performAccess (a : Access) : (s.performAccess a).Inv := by
  rcases s.performAccess_cases a with
    ha | ⟨d, ha⟩ | ⟨-, ha⟩ | ⟨w, -, ha⟩ | ⟨b, hb, hroom, ha⟩ | ⟨hb, hfull, ha⟩ <;> rw [ha]
  · exact h
  · exact h.observe d
  · exact h.dropWrite
  · exact h.accept w
  · exact h.storeInput hb hroom b
  · exact h.overflowInput hb hfull

theorem State.Inv.finish : s.finish.Inv :=
  { h with
    notBusyDone := by simp
    errIffCode := by simp
    errcodeLegal := by simp
    clearBeforeDone := by simp
    clearOnError := by simp
    overflowCode := by simp
    cflagShape := by simp
    digestAnswers := by simp }

theorem State.Inv.raiseError {k : ErrKind} (hk : k = .inputOverflow → s.inovf = true) :
    (s.raiseError k).Inv :=
  { h.finish with
    errIffCode := iff_of_false nofun k.code_ne_zero
    errcodeLegal := k.toNat_code_le
    clearBeforeDone := by simp
    clearOnError := by simp
    overflowCode := fun h6 => hk (ErrKind.code_injective h6) }

theorem State.toNat_putOutput_outLen {bs : Bytes} (hbs : bs.length ≤ s.cfg.capOut) :
    (s.putOutput bs).outLen.toNat = bs.length := by
  obtain ⟨-, hcap, -⟩ := h.cfgLegal
  unfold Config.capOut at hbs
  rw [State.putOutput_outLen, BitVec.toNat_ofNat, Nat.mod_eq_of_lt (by omega)]

/-- A result within CAP_OUT, as the completion puts it. -/
theorem State.Inv.finish_putOutput {bs : Bytes} (hbs : bs.length ≤ s.cfg.capOut) :
    (s.finish.putOutput bs).Inv :=
  { h.finish with
    outBufWf := Memory.wf_writeBytes h.outBufWf 0 bs
    outBufBound := fun c hc => by
      rcases Memory.mem_writeBytes hc with hc | ⟨-, hlt⟩
      · exact h.outBufBound c hc
      · exact (Nat.zero_add bs.length ▸ hlt).trans_le hbs
    outLenBound := (State.toNat_putOutput_outLen h.finish hbs).trans_le hbs
    cflagShape := by simp }

/-- A commit of an outcome that fits keeps the invariant (43_control.md R192, R197). -/
theorem State.Inv.commit {o : CmdOutcome} (ho : o.Fits s.cfg.capOut s.inovf) : (s.commit o).Inv := by
  cases o with
  | out bs => exact h.finish_putOutput ho
  | decoded v p =>
    have hp : p.length < 65536 := by
      obtain ⟨-, hcap, -⟩ := h.cfgLegal
      have hp : p.length ≤ 2 * s.cfg.capIn + 16 := ho
      omega
    exact { h.finish_putOutput ho with
      clearBeforeDone := nofun
      clearOnError := nofun
      cflagShape := fun hc => (State.output_commit_decoded h.outBufWf v hp).symm ▸ hc }
  | valid b => exact { h.finish with clearBeforeDone := nofun, clearOnError := nofun }
  | clearIn =>
    exact { h.finish with inLenBound := Nat.zero_le _, inovfFull := nofun, overflowCode := nofun }
  | fail k => exact h.raiseError ho

theorem State.Inv.two_mul_length_input_le : 2 * (s.input.length + 5) ≤ s.cfg.capOut := by
  have hin := h.inLenBound
  rw [State.input, Memory.length_readBytes, Config.capOut]
  omega

theorem State.Inv.engineStep {t : State} (ht : engineStep s = .next t) : t.Inv := by
  rcases engineStep_cases s with ⟨-, he⟩ | ⟨-, -, hash, -, he⟩ | ⟨-, -, he⟩ <;> cases he.symm.trans ht
  · exact h
  · exact h.commit (execOutcome_fits hash s.cur h.two_mul_length_input_le)
  · exact h

theorem State.Inv.performEvent {e : Event} {t : State} (ht : performEvent e s = .next t) : t.Inv := by
  rcases performEvent_cases ht with ⟨a, -, -, rfl⟩ | ⟨-, rfl⟩ | ⟨y, -, rfl⟩ | ⟨-, ht⟩ | ⟨-, rfl⟩
  · exact h.performAccess a
  · exact h.hashAnswer
  · exact h
  · exact h.engineStep ht
  · exact h.assertReset

end

/-- Settles O9: a step is the engine's turn or an event, and each operation of theirs keeps the invariant. -/
theorem everyStepKeepsTheInvariant : Obligations.EveryStepKeepsTheInvariant := by
  intro s t h ht
  rcases step_cases ht with ⟨-, ht⟩ | ⟨e, es, -, ht⟩
  · exact h.engineStep ht
  · exact (h.withEvents es).performEvent ht

end Sys2Proof.Machine
end

section
/-! PROOFS. The converter's statements about values, lengths and letters (40_base58.md R101 to R119,
00_scope.md R8, R9, R12), and what they give for coinstrings (42_coinstring.md R172, R174). A decoding is as
many 0x00 bytes as the string has leading `'1'`s and then the shortest bytes of the digits' value; lower-casing
keeps the first and never lowers the second. -/
namespace Sys2Proof.Machine

/-! ### The alphabet -/

theorem digit_eq_some_iff {c : Byte} {x : Nat} : digit c = some x ↔ x < 58 ∧ alpha x = c := by
  refine ⟨digit_eq_some, ?_⟩
  rintro ⟨hx, rfl⟩
  exact digit_alpha hx

theorem alphabet_getElem?_eq_some_iff {c : Byte} {x : Nat} :
    alphabet[x]? = some c ↔ x < 58 ∧ alpha x = c := by
  rw [alpha, List.getD_eq_getElem?_getD, ← length_alphabet]
  by_cases hx : x < alphabet.length
  · simp [hx]
  · simp [hx]

/-- The alphabet by codes, six runs of them (00_scope.md R9). -/
theorem map_toNat_alphabet : alphabet.map BitVec.toNat = List.range' 0x31 9 ++ List.range' 0x41 8 ++
    List.range' 0x4A 5 ++ List.range' 0x50 11 ++ List.range' 0x61 11 ++ List.range' 0x6D 14 := by decide

theorem not_mem_alphabet_iff {c : Byte} : c ∉ alphabet ↔ digit c = none := by
  rw [← isSome_digit_iff, Option.not_isSome_iff_eq_none]

/-- The bytes outside the alphabet lie between its runs (00_scope.md R9). -/
theorem digit_eq_none_iff (c : Byte) : digit c = none ↔
    (c.toNat ≤ 0x30 ∨ (0x3A ≤ c.toNat ∧ c.toNat ≤ 0x40) ∨ c.toNat = 0x49 ∨ c.toNat = 0x4F ∨
      (0x5B ≤ c.toNat ∧ c.toNat ≤ 0x60) ∨ c.toNat = 0x6C ∨ 0x7B ≤ c.toNat) := by
  rw [← not_mem_alphabet_iff, ← List.mem_map_of_injective fun _ _ => BitVec.eq_of_toNat_eq,
    map_toNat_alphabet]
  simp only [List.mem_append, List.mem_range'_1]
  omega

theorem pairwise_toNat_alphabet : alphabet.Pairwise (fun a b => a.toNat < b.toNat) := by
  rw [← List.pairwise_map (f := BitVec.toNat), map_toNat_alphabet]
  decide

theorem b58Decode_of_not_mem {s : Bytes} {c : Byte} (hc : c ∈ s) (hn : c ∉ alphabet) :
    b58Decode s = .error .invalidCharacter :=
  (decodeFailsOnlyOnInvalidCharacters s _).2 ⟨rfl, c, hc, hn⟩

/-- Settles O21: the table by evaluation, and a character without an ASCII code by its byte, which is from
0x80 on. -/
theorem alphabetIsTableA : Obligations.AlphabetIsTableA := by
  refine ⟨rfl, length_alphabet, pairwise_toNat_alphabet, rfl, fun c x => ?_,
    fun c x => digit_eq_some_iff, digit_eq_none_iff, fun c => toNat_charByte_of_ascii, ?_⟩
  · rw [digit_eq_some_iff, alphabet_getElem?_eq_some_iff]
  · rintro text ⟨c, hc, hge⟩
    have hbyte := le_toNat_charByte hge
    refine b58Decode_of_not_mem (List.mem_map_of_mem hc) (not_mem_alphabet_iff.2 ?_)
    rw [digit_eq_none_iff]
    omega

/-! ### Values and leading zeros -/

/-- Settles O22: `minBE` has the value, does not begin with 0x00, and its length is the least that the value
leaves room for. -/
theorem minBeIsShortest : Obligations.MinBeIsShortest := by
  refine fun n => ⟨beValue_minBE n, head?_minBE_ne_zero n, ?_⟩
  rintro bs rfl
  exact length_minBE_le (beValue_lt bs)

/-- Settles O25: both directions carry the count over, and the digits have the bytes' value. -/
theorem leadingZerosArePreserved : Obligations.LeadingZerosArePreserved := by
  refine ⟨l1_b58Encode, fun b => ⟨digitsOf 58 (beValue b), digitsIn_b58Encode b, ?_, ?_, ?_, ?_⟩,
    fun s b h => ?_, fun s ds hds => ⟨_, b58Decode_eq_ok.2 ⟨ds, hds, rfl⟩, ?_⟩⟩
  · exact fun d => mem_digitsOf_lt (by decide)
  · exact head?_digitsOf_ne_zero (by decide) _
  · exact radixValue_digitsOf (by decide) _
  · rw [radixValue_replicate_zero_append, radixValue_digitsOf (by decide)]
  · obtain ⟨ds, -, rfl⟩ := b58Decode_eq_ok.1 h
    exact lz_replicate_append_minBE _ _
  · rw [beValue_replicate_zero_append, beValue_minBE]

/-! ### Lengths -/

theorem length_b58Encode (b : Bytes) :
    (b58Encode b).length = lz b + (digitsOf 58 (beValue b)).length := by
  simp [b58Encode]

/-- A number is below the power of its number of digits. -/
theorem lt_pow_length_digitsOf {r : Nat} (hr : 1 < r) (n : Nat) : n < r ^ (digitsOf r n).length := by
  rw [digitsOf_eq hr, List.length_reverse]
  exact Nat.lt_base_pow_length_digits hr

/-- A number that is not 0 is at least the power of its number of digits but one. -/
theorem pow_length_digitsOf_le {r : Nat} (hr : 1 < r) {n : Nat} (hn : n ≠ 0) :
    r ^ ((digitsOf r n).length - 1) ≤ n := by
  by_contra hlt
  have hle := length_digitsOf_le hr (Nat.not_le.1 hlt)
  have hpos : digitsOf r n ≠ [] := by
    rw [digitsOf_eq hr, Ne, List.reverse_eq_nil_iff]
    exact Nat.digits_ne_nil_iff_ne_zero.2 hn
  have := List.length_pos_iff.2 hpos
  omega

/-- The digits of a value below 256 ^ m: log 256 / log 58 is below 183 / 134 (40_base58.md R103). -/
theorem length_digitsOf_le_of_lt_pow {n m : Nat} (h : n < 256 ^ m) :
    134 * (digitsOf 58 n).length ≤ 183 * m + 133 := by
  by_cases hn : n = 0
  · simp [hn, digitsOf, remainders]
  · have hpow : 58 ^ (134 * ((digitsOf 58 n).length - 1)) < 58 ^ (183 * m) :=
      calc 58 ^ (134 * ((digitsOf 58 n).length - 1))
          = (58 ^ ((digitsOf 58 n).length - 1)) ^ 134 := by rw [Nat.mul_comm, pow_mul]
        _ ≤ n ^ 134 := Nat.pow_le_pow_left (pow_length_digitsOf_le (by decide) hn) _
        _ < (256 ^ m) ^ 134 := Nat.pow_lt_pow_left h (by decide)
        _ = (256 ^ 134) ^ m := by rw [← pow_mul, Nat.mul_comm, pow_mul]
        _ ≤ (58 ^ 183) ^ m := Nat.pow_le_pow_left (by norm_num) _
        _ = 58 ^ (183 * m) := (pow_mul ..).symm
    have := (Nat.pow_lt_pow_iff_right (by decide)).1 hpow
    omega

/-- Settles O27: the digits' number is D(BE(b)), and the leading 0x00 bytes take one character each. -/
theorem encodingLength : Obligations.EncodingLength := by
  intro b
  refine ⟨(digitsOf 58 (beValue b)).length, length_b58Encode b, lt_pow_length_digitsOf (by decide) _,
    fun e => length_digitsOf_le (by decide), ?_, length_b58Encode_le b⟩
  have hdigits := length_digitsOf_le_of_lt_pow (beValue_lt_pow_sub_lz b)
  have hlz : lz b ≤ b.length := leadCount_le 0 b
  rw [length_b58Encode]
  omega

/-- Settles O28: 2 n for an encoding, n for a decoding, and 2 (n + 5) for an encoded payload. -/
theorem conversionOutputsFit : Obligations.ConversionOutputsFit := by
  intro c inp _ hin
  unfold Config.capOut
  refine ⟨?_, fun b hb => (length_b58Decode_le hb).trans hin, fun h v s hs => ?_⟩
  · have := length_b58Encode_le inp
    omega
  · have := length_csEncode_le hs
    omega

/-! ### Lower-casing -/

theorem lowerCase_of_not_isUpper {c : Byte} (h : isUpper c = false) : lowerCase c = c := by
  simp [lowerCase, h]

theorem lowerCase_ne_self {c : Byte} (h : isUpper c = true) : lowerCase c ≠ c := by
  simp [lowerCase, h]

theorem map_lowerCase_ne_self {s : Bytes} (h : ∃ c ∈ s, isUpper c = true) : s.map lowerCase ≠ s := by
  obtain ⟨c, hc, hup⟩ := h
  exact fun he => lowerCase_ne_self hup (List.map_inj_left.1 (he.trans s.map_id.symm) c hc)

/-- Settles O29: the changed string cannot decode to the same bytes, since decoding is injective. -/
theorem caseIsSignificant : Obligations.CaseIsSignificant := by
  intro s b hs
  refine ⟨fun hup => ⟨map_lowerCase_ne_self hup, fun hl => b58Decode_of_not_mem hl (by decide), fun he =>
    map_lowerCase_ne_self hup ?_⟩, fun hlow => ?_⟩
  · rw [← b58Encode_of_b58Decode he, b58Encode_of_b58Decode hs]
  · exact (List.map_congr_left fun c hc => lowerCase_of_not_isUpper (hlow c hc)).trans s.map_id

theorem length_minBE_mono {n m : Nat} (h : n ≤ m) : (minBE n).length ≤ (minBE m).length := by
  have hm := beValue_lt (minBE m)
  rw [beValue_minBE] at hm
  exact length_minBE_le (h.trans_lt hm)

theorem radixValue_mono {r : Nat} {ds ds' : List Nat} (h : List.Forall₂ (· ≤ ·) ds ds') :
    radixValue r ds ≤ radixValue r ds' := by
  unfold radixValue
  suffices hfold : ∀ n m, n ≤ m →
      ds.foldl (fun n d => n * r + d) n ≤ ds'.foldl (fun n d => n * r + d) m from hfold 0 0 (Nat.le_refl 0)
  induction h with
  | nil => exact fun n m hnm => hnm
  | cons hd _ ih => exact fun n m hnm => ih _ _ (Nat.add_le_add (Nat.mul_le_mul_right r hnm) hd)

/-- The digits of a string are its characters' digits. -/
theorem digitsIn_eq_ok_iff {s : Bytes} {ds : List Nat} :
    digitsIn s = .ok ds ↔ List.Forall₂ (fun c d => digit c = some d) s ds := by
  induction s generalizing ds with
  | nil => simp [digitsIn, eq_comm]
  | cons c s ih =>
    rw [List.forall₂_cons_left_iff]
    simp only [← ih]
    rw [digitsIn]
    cases digit c <;> cases digitsIn s <;> simp [eq_comm]

/-- A lower-case letter has the greater digit (00_scope.md R8). -/
theorem le_of_digit_lowerCase {x y : Nat} (hx : x < 58) (hy : digit (lowerCase (alpha x)) = some y) :
    x ≤ y := by
  have htable : ∀ x : Fin 58, ∀ y ∈ digit (lowerCase (alpha x)), (x : Nat) ≤ y := by decide +kernel
  exact htable ⟨x, hx⟩ y hy

theorem lowerCase_eq_zeroSymbol_iff (c : Byte) : lowerCase c = zeroSymbol ↔ c = zeroSymbol := by
  unfold lowerCase isUpper zeroSymbol
  split
  · next h =>
    rw [Bool.and_eq_true, decide_eq_true_eq, decide_eq_true_eq] at h
    bv_omega
  · exact Iff.rfl

@[simp] theorem l1_map_lowerCase (s : Bytes) : l1 (s.map lowerCase) = l1 s := by
  have hp : ((fun b : Byte => b == zeroSymbol) ∘ lowerCase) = fun b => b == zeroSymbol := by
    funext c
    simp [lowerCase_eq_zeroSymbol_iff]
  rw [l1, leadCount, List.takeWhile_map, List.length_map, hp]
  rfl

/-- No digit of the lower-cased string is below that of the string. -/
theorem digits_le_of_lowerCase {s : Bytes} {ds ds' : List Nat} (h : digitsIn s = .ok ds)
    (h' : digitsIn (s.map lowerCase) = .ok ds') : List.Forall₂ (· ≤ ·) ds ds' := by
  rw [digitsIn_eq_ok_iff] at h h'
  rw [List.forall₂_map_left_iff] at h'
  induction h generalizing ds' with
  | nil => cases h'; exact .nil
  | cons hd _ ih =>
    cases h' with
    | cons hd' h' =>
      obtain ⟨hx, rfl⟩ := digit_eq_some hd
      exact .cons (le_of_digit_lowerCase hx hd') (ih h')

/-- Lower-casing never shortens what a string decodes to. -/
theorem length_b58Decode_le_lowerCase {s b b' : Bytes} (h : b58Decode s = .ok b)
    (h' : b58Decode (s.map lowerCase) = .ok b') : b.length ≤ b'.length := by
  obtain ⟨ds, hds, rfl⟩ := b58Decode_eq_ok.1 h
  obtain ⟨ds', hds', rfl⟩ := b58Decode_eq_ok.1 h'
  have hvalue := length_minBE_mono (radixValue_mono (r := 58) (digits_le_of_lowerCase hds hds'))
  simpa using hvalue

theorem csDecode_eq_tooShort {h : Bytes → Bytes} {ver : Option Byte} {s : Bytes}
    (he : csDecode h ver s = .error .tooShort) : ∃ eb, b58Decode s = .ok eb ∧ eb.length < 5 := by
  cases hs : b58Decode s with
  | error k =>
    rw [csDecode_of_b58Decode_error hs, b58Decode_eq_error hs] at he
    cases he
  | ok eb =>
    refine ⟨eb, rfl, ?_⟩
    by_contra hlen
    rw [csDecode_of_b58Decode hs] at he
    simpa using error_of_unframeBytes (Nat.not_lt.1 hlen) he

theorem csDecode_eq_ok {h : Bytes → Bytes} {ver : Option Byte} {s : Bytes} {r : Byte × Bytes}
    (hr : csDecode h ver s = .ok r) : ∃ eb, b58Decode s = .ok eb ∧ 5 ≤ eb.length := by
  cases hs : b58Decode s with
  | error k => simp [csDecode_of_b58Decode_error hs] at hr
  | ok eb =>
    rw [csDecode_of_b58Decode hs] at hr
    obtain ⟨hlen, -⟩ := unframeBytes_eq_ok.1 hr
    exact ⟨eb, rfl, hlen⟩

/-- Settles O35: what the string decodes to has 5 bytes, and the lower-cased one's is no shorter. -/
theorem lowerCasedStringIsNeverTooShort : Obligations.LowerCasedStringIsNeverTooShort := by
  intro h h' ver ver' s r hr he
  obtain ⟨eb, hs, hlen⟩ := csDecode_eq_ok hr
  obtain ⟨eb', hs', hlen'⟩ := csDecode_eq_tooShort he
  have := length_b58Decode_le_lowerCase hs hs'
  omega

/-! ### Wallet import format -/

theorem radixValue_cons (r x : Nat) (ds : List Nat) :
    radixValue r (x :: ds) = x * r ^ ds.length + radixValue r ds := by
  rw [radixValue_eq, radixValue_eq, List.reverse_cons, Nat.ofDigits_append, Nat.ofDigits_singleton,
    List.length_reverse, Nat.add_comm, Nat.mul_comm]

/-- The value of bytes lies between the first one's multiples of a power of 256. -/
theorem beValue_cons_bounds (b : Byte) (bs : Bytes) : b.toNat * 256 ^ bs.length ≤ beValue (b :: bs) ∧
    beValue (b :: bs) < (b.toNat + 1) * 256 ^ bs.length := by
  have hrest := beValue_lt bs
  have hvalue : beValue (b :: bs) = b.toNat * 256 ^ bs.length + beValue bs := by
    rw [beValue_eq_radixValue, List.map_cons, radixValue_cons, List.length_map, beValue_eq_radixValue]
  rw [hvalue, Nat.succ_mul]
  omega

/-- A number below r ^ k has k digits, with zeros in front. -/
theorem exists_digits_of_lt_pow {r m k : Nat} (hr : 1 < r) (hm : m < r ^ k) :
    ∃ ds : List Nat, ds.length = k ∧ (∀ d ∈ ds, d < r) ∧ radixValue r ds = m := by
  have hlen := length_digitsOf_le hr hm
  refine ⟨List.replicate (k - (digitsOf r m).length) 0 ++ digitsOf r m, ?_, fun d hd => ?_, ?_⟩
  · rw [List.length_append, List.length_replicate, Nat.sub_add_cancel hlen]
  · rcases List.mem_append.1 hd with hd | hd
    · rw [List.eq_of_mem_replicate hd]
      omega
    · exact mem_digitsOf_lt hr hd
  · rw [radixValue_replicate_zero_append, radixValue_digitsOf hr]

/-- The first digit of a number, and how many follow it. -/
theorem exists_digitsOf_eq_cons {r n k x : Nat} (hr : 1 < r) (hx : x ≠ 0) (hxr : x < r)
    (hlo : x * r ^ k ≤ n) (hhi : n < (x + 1) * r ^ k) : ∃ ds, digitsOf r n = x :: ds ∧ ds.length = k := by
  obtain ⟨m, rfl⟩ := Nat.exists_eq_add_of_le hlo
  obtain ⟨ds, hlen, hlt, rfl⟩ := exists_digits_of_lt_pow hr (k := k) (m := m) (by
    rw [Nat.succ_mul] at hhi
    omega)
  refine ⟨ds, ?_, hlen⟩
  rw [← hlen, ← radixValue_cons]
  exact digitsOf_radixValue hr (List.forall_mem_cons.2 ⟨hxr, hlt⟩) (by simpa using hx)

/-- The length and the first character of the encoding of bytes that do not begin with 0x00. -/
theorem b58Encode_of_value {b : Bytes} {k x : Nat} (hz : lz b = 0) (hx : x ≠ 0) (hx58 : x < 58)
    (hlo : x * 58 ^ k ≤ beValue b) (hhi : beValue b < (x + 1) * 58 ^ k) :
    (b58Encode b).length = k + 1 ∧ (b58Encode b).head? = some (alpha x) := by
  obtain ⟨ds, hds, hlen⟩ := exists_digitsOf_eq_cons (by decide) hx hx58 hlo hhi
  simp [b58Encode, hz, hds, hlen]

/-- A payload under version 0x80, encoded: bytes of a value from 128 to 129 times a power of 256. -/
theorem exists_csEncode_version80 {h : Bytes → Bytes} (p : Bytes) (hd : 4 ≤ (h (0x80 :: p)).length) :
    ∃ eb, csEncode h 0x80 p = .ok (b58Encode eb) ∧ lz eb = 0 ∧ 128 * 256 ^ (p.length + 4) ≤ beValue eb ∧
      beValue eb < 129 * 256 ^ (p.length + 4) := by
  have hlen : (p ++ (h (0x80 :: p)).take 4).length = p.length + 4 :=
    List.length_append.trans (congrArg _ (List.length_take_of_le hd))
  have hbounds := hlen ▸ beValue_cons_bounds 0x80 (p ++ (h (0x80 :: p)).take 4)
  exact ⟨_, csEncode_eq_ok.2 ⟨_, frameBuild_eq_ok.2 ⟨hd, rfl⟩, rfl⟩, rfl, hbounds⟩

/-- Settles O34: the value's bounds between multiples of a power of 58 give the length and the first digit,
which with the byte 0x01 appended is one of two. -/
theorem wifShape : Obligations.WifShape := by
  intro h key hkey
  refine ⟨fun hd => ?_, fun hd => ?_⟩
  · obtain ⟨eb, hs, hz, hlo, hhi⟩ := exists_csEncode_version80 key hd
    rw [hkey] at hlo hhi
    have hfirst := b58Encode_of_value (k := 50) (x := 4) hz (by decide) (by decide)
      (le_trans (by norm_num) hlo) (hhi.trans_le (by norm_num))
    exact ⟨_, hs, hfirst⟩
  · obtain ⟨eb, hs, hz, hlo, hhi⟩ := exists_csEncode_version80 (key ++ [0x01]) hd
    rw [List.length_append, hkey] at hlo hhi
    by_cases hK : beValue eb < 19 * 58 ^ 51
    · obtain ⟨hlen, hhead⟩ := b58Encode_of_value (k := 51) (x := 18) hz (by decide) (by decide)
        (le_trans (by norm_num) hlo) hK
      exact ⟨_, hs, hlen, .inl hhead⟩
    · obtain ⟨hlen, hhead⟩ := b58Encode_of_value (k := 51) (x := 19) hz (by decide) (by decide)
        (Nat.not_lt.1 hK) (hhi.trans_le (by norm_num))
      exact ⟨_, hs, hlen, .inr hhead⟩

/-! ### The compression shape -/

/-- Settles O36: the key is the first 32 bytes. -/
theorem compressedShape : Obligations.CompressedShape := by
  intro p
  simp only [compShape, Bool.and_eq_true, decide_eq_true_eq]
  constructor
  · rintro ⟨hlen, hlast⟩
    refine ⟨p.take 32, by simp [hlen], ?_⟩
    have hdrop : p.drop 32 = [0x01] := by
      obtain ⟨h32, hp⟩ := List.getElem?_eq_some_iff.1 hlast
      rw [List.drop_eq_getElem_cons h32, hp, List.drop_of_length_le (by omega)]
    rw [← hdrop, List.take_append_drop]
  · rintro ⟨key, hkey, rfl⟩
    simp [hkey]

end Sys2Proof.Machine
end

section
/-! PROOFS. The commands in the block (40_base58.md R104, R114, 41_framer.md R137, R138, 42_coinstring.md R160 to
R168, 60_exceptions.md R201 to R208). Each one's turn is the commit of its outcome, under the response that has
arrived or, where the command asks nothing, whatever the hash port holds; what a commit writes and what it
leaves is said once for each kind of outcome. -/
namespace Sys2Proof.Machine

/-! ### What a commit writes -/

/-- The result put into a canonical OUT_BUF, and the bytes beyond it (43_control.md R197). -/
theorem State.wroteOutput_putOutput {s : State} (hw : s.outBuf.wf) {bs : Bytes} (hl : bs.length < 65536) :
    s.WroteOutput (s.putOutput bs) bs := by
  refine ⟨State.output_putOutput hw hl, ?_, fun i hi => ?_⟩
  · rw [State.putOutput_outLen, BitVec.toNat_ofNat, Nat.mod_eq_of_lt hl]
  · rw [State.putOutput_outBuf, Memory.read_writeBytes hw, if_neg (by omega)]

/-- A committed byte sequence: OUT, a success STATUS, and nothing else. -/
theorem State.commit_out_frame {s : State} (hw : s.outBuf.wf) {bs : Bytes} (hl : bs.length < 65536) :
    s.WroteOutput (s.commit (.out bs)) bs ∧ (s.commit (.out bs)).versionOut = s.versionOut ∧
    (s.commit (.out bs)).Completed false 0 false false ∧ s.KeepsInput (s.commit (.out bs)) ∧
    s.KeepsShell (s.commit (.out bs)) :=
  ⟨State.wroteOutput_putOutput (s := s.finish) hw hl, rfl, ⟨rfl, rfl, rfl, rfl, rfl, rfl, rfl⟩,
    ⟨rfl, rfl, rfl⟩, rfl, rfl, rfl, rfl, rfl⟩

/-- A committed version and payload: OUT, VERSION_OUT, a success STATUS, and nothing else. -/
theorem State.commit_decoded_frame {s : State} (hw : s.outBuf.wf) (v : Byte) {p : Bytes}
    (hl : p.length < 65536) : s.WroteOutput (s.commit (.decoded v p)) p ∧
    (s.commit (.decoded v p)).versionOut = v ∧
    (s.commit (.decoded v p)).Completed false 0 false (compShape p) ∧
    s.KeepsInput (s.commit (.decoded v p)) ∧ s.KeepsShell (s.commit (.decoded v p)) :=
  ⟨State.wroteOutput_putOutput (s := s.finish) hw hl, rfl, ⟨rfl, rfl, rfl, rfl, rfl, rfl, rfl⟩,
    ⟨rfl, rfl, rfl⟩, rfl, rfl, rfl, rfl, rfl⟩

/-- A committed answer of CSVAL: VALID in a success STATUS, and nothing else. -/
theorem State.commit_valid_frame (s : State) (b : Bool) : (s.commit (.valid b)).Completed false 0 b false ∧
    s.KeepsInput (s.commit (.valid b)) ∧ s.KeepsResults (s.commit (.valid b)) ∧
    s.KeepsShell (s.commit (.valid b)) :=
  ⟨⟨rfl, rfl, rfl, rfl, rfl, rfl, rfl⟩, ⟨rfl, rfl, rfl⟩, ⟨rfl, rfl, rfl⟩, rfl, rfl, rfl, rfl, rfl⟩

theorem exists_failedWith_of_exec {i : Instr} {s : State} {k : ErrKind}
    (h : exec i s = .next (s.commit (.fail k))) : ∃ t, exec i s = .next t ∧ s.FailedWith t k :=
  ⟨_, h, State.failedWith_commit_fail s k⟩

theorem State.length_input (s : State) : s.input.length = s.inLen.toNat :=
  Memory.length_readBytes ..

/-! ### B58ENC and B58DEC -/

/-- Settles O39: B58ENC asks nothing and commits the encoding. -/
theorem b58encWritesTheEncoding : Obligations.B58encWritesTheEncoding := by
  intro s hs ho
  have hin := State.length_input_le hs
  have hout := length_b58Encode_le s.input
  obtain ⟨-, hw, -⟩ := hs
  exact ⟨_, exec_of_commandRequest_none (by decide) ho rfl, State.commit_out_frame hw (by omega)⟩

/-- B58DEC asks nothing and commits what the input decodes to, or its failure (40_base58.md R114). -/
theorem exec_b58dec {s : State} (ho : s.inovf = false) :
    exec .b58dec s = .next (s.commit (outcomeOfBytes (b58Decode s.input))) :=
  exec_of_commandRequest_none (by decide) ho rfl

/-- Settles O40, by the two answers of decoding. -/
theorem b58decWritesTheDecoding : Obligations.B58decWritesTheDecoding := by
  intro s hs ho
  have hin := State.length_input_le hs
  obtain ⟨-, hw, -⟩ := hs
  refine ⟨fun b hb => ?_, ?_⟩
  · have hout := length_b58Decode_le hb
    exact ⟨_, (exec_b58dec ho).trans (by rw [hb]; rfl), State.commit_out_frame hw (by omega)⟩
  · rintro ⟨c, hc, hn⟩
    exact exists_failedWith_of_exec ((exec_b58dec ho).trans (by rw [b58Decode_of_not_mem hc hn]; rfl))

/-! ### FRAME and CSENC -/

section
variable {y : Bytes} (v : Byte) (p : Bytes)

/-- FrameBuild under one response: it fits the frame, or it is too short (41_framer.md R133, R135). -/
theorem frameBuild_response (hy : 4 ≤ y.length) :
    frameBuild (fun _ => y) v p = .ok (v :: (p ++ y.take 4)) :=
  frameBuild_eq_ok.2 ⟨hy, rfl⟩

theorem frameBuild_response_short (hy : y.length < 4) : frameBuild (fun _ => y) v p = .error .hashFault :=
  frameBuild_eq_error.2 ⟨hy, rfl⟩

theorem csEncode_response (hy : 4 ≤ y.length) :
    csEncode (fun _ => y) v p = .ok (b58Encode (v :: (p ++ y.take 4))) :=
  csEncode_eq_ok.2 ⟨_, frameBuild_response v p hy, rfl⟩

theorem csEncode_response_short (hy : y.length < 4) : csEncode (fun _ => y) v p = .error .hashFault :=
  csEncode_eq_error.2 (frameBuild_response_short v p hy)

end

/-- Settles O41, by whether the response has four bytes. -/
theorem frameAppendsTheChecksum : Obligations.FrameAppendsTheChecksum := by
  intro s v y hs ho hd
  have hin := State.length_input_le hs
  obtain ⟨-, hw, -⟩ := hs
  have hexec := exec_of_digest (i := .frameV v) (by simp) ho hd
  refine ⟨fun hy => ?_, fun hy => exists_failedWith_of_exec (hexec.trans ?_)⟩
  · have hlen := length_frameBuild (frameBuild_response (versionByte v) s.input hy)
    obtain ⟨hwrote, hframe⟩ := State.commit_out_frame hw (hlen.trans_lt (by omega))
    obtain ⟨-, houtLen, -⟩ := id hwrote
    refine ⟨_, hexec.trans ?_, hwrote, ?_, hframe⟩
    · rw [commandOutcome, frameBuild_response _ _ hy]
      rfl
    · rw [houtLen, hlen, State.length_input]
  · rw [commandOutcome, frameBuild_response_short _ _ hy]
    rfl

/-- Settles O42, by whether the response has four bytes. -/
theorem csencWritesTheEncodedFrame : Obligations.CsencWritesTheEncodedFrame := by
  intro s v y hs ho hd
  have hin := State.length_input_le hs
  obtain ⟨-, hw, -⟩ := hs
  have hexec := exec_of_digest (i := .csencV v) (by simp) ho hd
  refine ⟨fun hy => ?_, fun hy => exists_failedWith_of_exec (hexec.trans ?_)⟩
  · have henc := csEncode_response (versionByte v) s.input hy
    have hlen := length_csEncode_le henc
    refine ⟨_, hexec.trans ?_, State.commit_out_frame hw (hlen.trans_lt (by omega))⟩
    rw [commandOutcome, henc]
    rfl
  · rw [commandOutcome, csEncode_response_short _ _ hy]
    rfl

/-! ### UNFRAME and CSDEC -/

/-- A command that commits Unframe of b, p, c under the response: its failures in the order of 41_framer.md
R141, and its result. The expected version is the operand of the form `f`, in the form that has one. -/
theorem exec_unframes {s : State} {i : Instr} {f : Nat → Instr} {ver : Option Byte} {y : Bytes} {b : Byte}
    {p c : Bytes} (hw : s.outBuf.wf) (hp : p.length < 65536) (hc : c.length = 4)
    (hver : ∀ w, ver = some w ↔ ∃ v, i = f v ∧ w = versionByte v)
    (hexec : exec i s =
      .next (s.commit (outcomeOfDecoded (unframeBytes (fun _ => y) ver (b :: p ++ c))))) :
    (y.length < 4 → ∃ t, exec i s = .next t ∧ s.FailedWith t .hashFault) ∧
    (4 ≤ y.length → y.take 4 ≠ c → ∃ t, exec i s = .next t ∧ s.FailedWith t .checksumMismatch) ∧
    (4 ≤ y.length → y.take 4 = c → ∀ v, i = f v → b ≠ versionByte v →
      ∃ t, exec i s = .next t ∧ s.FailedWith t .versionMismatch) ∧
    (4 ≤ y.length → y.take 4 = c → (∀ v, i = f v → b = versionByte v) →
      ∃ t, exec i s = .next t ∧ s.WroteOutput t p ∧ t.versionOut = b ∧
        t.Completed false 0 false (compShape p) ∧ s.KeepsInput t ∧ s.KeepsShell t) := by
  obtain ⟨-, horder⟩ := unframeFollowsTheStepOrder (fun _ => y) ver (b :: p ++ c)
  obtain ⟨-, hshort, hsum, hmatch⟩ := horder b p c rfl hc
  have hfail : ∀ {k}, unframeBytes (fun _ => y) ver (b :: p ++ c) = .error k →
      ∃ t, exec i s = .next t ∧ s.FailedWith t k := fun hk =>
    exists_failedWith_of_exec (hexec.trans (by rw [hk]; rfl))
  refine ⟨fun hy => hfail (hshort hy), fun hy hne => hfail (hsum hy hne), fun hy heq v hi hne => ?_,
    fun hy heq hall => ?_⟩
  · exact hfail ((hmatch hy heq).1 _ ((hver _).2 ⟨v, hi, rfl⟩) hne)
  · have hok : unframeBytes (fun _ => y) ver (b :: p ++ c) = .ok (b, p) := by
      refine (hmatch hy heq).2 fun w hw => ?_
      obtain ⟨v, hi, rfl⟩ := (hver w).1 hw
      exact hall v hi
    exact ⟨_, hexec.trans (by rw [hok]; rfl), State.commit_decoded_frame hw b hp⟩

/-- Settles O43: both forms commit Unframe of the input. -/
theorem unframeStripsAndVerifies : Obligations.UnframeStripsAndVerifies := by
  intro s y b p c hs ho hin hc hd i hi
  have hlen := State.length_input_le hs
  have hp : p.length < 65536 := by
    rw [hin, List.length_append, List.length_cons] at hlen
    omega
  obtain ⟨-, hw, -⟩ := hs
  rcases hi with rfl | ⟨v, rfl⟩
  · exact exec_unframes (f := .unframeV) hw hp hc (by simp [noVersion])
      (hin ▸ exec_of_digest (by simp) ho hd)
  · exact exec_unframes (f := .unframeV) hw hp hc (by simp [expectVersion, eq_comm])
      (hin ▸ exec_of_digest (by simp) ho hd)

/-- Settles O44: both forms commit Unframe of what the input decodes to. -/
theorem csdecStripsAndVerifies : Obligations.CsdecStripsAndVerifies := by
  intro s y b p c hs ho hin hc hd i hi
  have hlen := (length_b58Decode_le hin).trans (State.length_input_le hs)
  have hp : p.length < 65536 := by
    rw [List.length_append, List.length_cons] at hlen
    omega
  obtain ⟨-, hw, -⟩ := hs
  have hdec := csDecode_of_b58Decode hin (fun _ => y)
  rcases hi with rfl | ⟨v, rfl⟩
  · refine exec_unframes (f := .csdecV) (ver := noVersion) hw hp hc (by simp [noVersion]) ?_
    rw [exec_of_digest (by simp) ho hd, ← hdec]
    rfl
  · refine exec_unframes (f := .csdecV) (ver := expectVersion v) hw hp hc
      (by simp [expectVersion, eq_comm]) ?_
    rw [exec_of_digest (by simp) ho hd, ← hdec]
    rfl

/-! ### Failures before the hash (60_exceptions.md R201, R203) -/

theorem csDecodeRequest_of_short {s eb : Bytes} (hs : b58Decode s = .ok eb) (hlen : eb.length < 5) :
    csDecodeRequest s = none := by
  rw [csDecodeRequest_of_ok hs, unframeRequest_of_lt hlen]

theorem csDecode_of_short {s eb : Bytes} (hs : b58Decode s = .ok eb) (hlen : eb.length < 5)
    (h : Bytes → Bytes) (ver : Option Byte) : csDecode h ver s = .error .tooShort := by
  rw [csDecode_of_b58Decode hs, unframeBytes_of_lt hlen]

section
variable {s : State} {i : Instr} {v : Nat} {k : ErrKind}

theorem exec_csdec_of_error (hi : i ∈ [Instr.csdec, .csdecV v]) (ho : s.inovf = false)
    (hr : csDecodeRequest s.input = none)
    (hk : ∀ ver, csDecode (fun _ => []) ver s.input = .error k) :
    exec i s = .next (s.commit (.fail k)) := by
  have hreq : commandRequest i s.input = none :=
    (commandRequest_of_mem_decode (List.mem_append_left [.csvalV v] hi) _).trans hr
  simp only [List.mem_cons, List.not_mem_nil, or_false] at hi
  rw [exec_of_commandRequest_none (by rintro rfl; simp at hi) ho hreq]
  rcases hi with rfl | rfl <;> rw [commandOutcome, hk] <;> rfl

theorem exec_unframe_of_short (hi : i ∈ [Instr.unframe, .unframeV v]) (ho : s.inovf = false)
    (hlen : s.input.length < 5) : exec i s = .next (s.commit (.fail .tooShort)) := by
  have hreq : commandRequest i s.input = none :=
    (commandRequest_of_mem_unframe hi _).trans (unframeRequest_of_lt hlen)
  simp only [List.mem_cons, List.not_mem_nil, or_false] at hi
  rw [exec_of_commandRequest_none (by rintro rfl; simp at hi) ho hreq]
  rcases hi with rfl | rfl <;> rw [commandOutcome, unframeBytes_of_lt hlen] <;> rfl

end

/-- Settles O45: none of these makes a request, and the outcome does not ask the hash. -/
theorem decodeFailsBeforeTheHash : Obligations.DecodeFailsBeforeTheHash := by
  intro s v ho
  refine ⟨fun i hi => ?_, fun i hi eb hs hlen => ?_, fun i hi hlen => ?_⟩
  · rintro ⟨c, hc, hn⟩
    have hbad := b58Decode_of_not_mem hc hn
    exact exists_failedWith_of_exec (exec_csdec_of_error hi ho (csDecodeRequest_of_error hbad)
      (csDecode_of_b58Decode_error hbad _))
  · exact exists_failedWith_of_exec (exec_csdec_of_error hi ho (csDecodeRequest_of_short hs hlen)
      (csDecode_of_short hs hlen _))
  · exact exists_failedWith_of_exec (exec_unframe_of_short hi ho (s.length_input.trans_lt hlen))

/-! ### CSVAL -/

/-- CSVAL on bytes b, p, c under a response: VALID is the agreement of checksum and version
(42_coinstring.md R163, R164). -/
theorem outcomeOfValidate_unframeBytes {y : Bytes} {b w : Byte} {p c : Bytes} (hc : c.length = 4)
    (hy : 4 ≤ y.length) : outcomeOfValidate (unframeBytes (fun _ => y) (some w) (b :: p ++ c)) =
      .valid (decide (y.take 4 = c ∧ b = w)) := by
  obtain ⟨-, horder⟩ := unframeFollowsTheStepOrder (fun _ => y) (some w) (b :: p ++ c)
  obtain ⟨-, -, hsum, hmatch⟩ := horder b p c rfl hc
  by_cases heq : y.take 4 = c
  · by_cases hb : b = w
    · rw [(hmatch hy heq).2 (by simpa using hb)]
      simp [outcomeOfValidate, heq, hb]
    · rw [(hmatch hy heq).1 w rfl hb]
      simp [outcomeOfValidate, hb]
  · rw [hsum hy heq]
    simp [outcomeOfValidate, heq]

/-- Settles O46: the two failures without a request, then the short response, then the agreement. -/
theorem csvalFoldsDecodeFailures : Obligations.CsvalFoldsDecodeFailures := by
  intro s v ho
  refine ⟨fun hbad => ⟨_, ?_, State.commit_valid_frame s false⟩, fun y b p c hs hc hd => ?_⟩
  · rcases hbad with ⟨c, hc, hn⟩ | ⟨eb, hs, hlen⟩
    · have hbad := b58Decode_of_not_mem hc hn
      have hr := csDecodeRequest_of_error hbad
      rw [exec_of_commandRequest_none (i := .csvalV v) (by simp) ho hr, commandOutcome,
        csDecode_of_b58Decode_error hbad]
      rfl
    · have hr := csDecodeRequest_of_short hs hlen
      rw [exec_of_commandRequest_none (i := .csvalV v) (by simp) ho hr, commandOutcome,
        csDecode_of_short hs hlen]
      rfl
  · have hexec := exec_of_digest (i := .csvalV v) (by simp) ho hd
    rw [commandOutcome, csDecode_of_b58Decode hs] at hexec
    refine ⟨fun hy => exists_failedWith_of_exec (hexec.trans ?_), fun hy =>
      ⟨_, hexec.trans ?_, State.commit_valid_frame s _⟩⟩
    · obtain ⟨-, horder⟩ := unframeFollowsTheStepOrder (fun _ => y) (expectVersion v) (b :: p ++ c)
      obtain ⟨-, hshort, -⟩ := horder b p c rfl hc
      rw [hshort hy]
      rfl
    · rw [expectVersion, outcomeOfValidate_unframeBytes hc hy]

/-! ### The codec in the block (42_coinstring.md R167, R168) -/

theorem versionByte_injOn {v w : Nat} (hv : v ≤ 255) (hw : w ≤ 255) (hne : w ≠ v) :
    versionByte w ≠ versionByte v := fun he => hne <| by
  rw [← toNat_versionByte hw, he, toNat_versionByte hv]

/-- Settles O60: each decode command commits what decoding an encoded payload answers under its expected
version. -/
theorem encodedPayloadDecodesInTheBlock : Obligations.EncodedPayloadDecodesInTheBlock := by
  intro s s' t v w y hs hs' ho ho' hd hd' hy hv hw hne ht hin
  have henc := csEncode_eq_output_of_exec_csencV hs ho hd hy ht
  rw [← hin] at henc
  have hsame := csDecode_some_of_csEncode henc
  have hother := csDecode_of_csEncode_of_ne henc (versionByte_injOn hv hw hne)
  have hlen := State.length_input_le hs
  obtain ⟨-, hwf, -⟩ := hs'
  refine ⟨fun i hi => ⟨_, exec_csdec_of_exec_csencV hs ho ho' hd hd' hy ht hin hi,
    State.output_commit_decoded hwf _ (by omega), toNat_versionByte hv, rfl, rfl⟩,
    exists_failedWith_of_exec ?_, ⟨s'.commit (.valid true), ?_, rfl, rfl⟩,
    ⟨s'.commit (.valid false), ?_, rfl, rfl⟩⟩
  · rw [exec_of_digest (by simp) ho' hd', commandOutcome, expectVersion, hother]
    rfl
  · rw [exec_of_digest (by simp) ho' hd', commandOutcome, expectVersion, hsame]
    rfl
  · rw [exec_of_digest (by simp) ho' hd', commandOutcome, expectVersion, hother]
    rfl

end Sys2Proof.Machine
end

section
/-! PROOFS. Rules of the whole machine (43_control.md R191 to R199, 10_state.md R24 to R28, 20_memory.md R62,
30_encoding.md R90): the completion as the commit of Exec(CUR), which steps change IN_LEN and the result
registers, the outcome that stays until the next command, and the host's `run cmd` from its accept to its last
poll. -/
namespace Sys2Proof.Machine

/-! ### The completion -/

/-- Settles O50: the engine's turn under the invariant, on the state without the event. -/
theorem completionCommitsExecOfCur : Obligations.CompletionCommitsExecOfCur := fun _ hinv he hturn hr =>
  (step_of_engineTurn hturn).trans (engineStep_of_hashRequest_none (hinv.withEvents _) he hr)

section
variable {h : Bytes → Bytes} {w : Word} {inovf : Bool} {inp : Bytes}

/-- An outcome of Exec(CUR) other than a failure and ClearIn is the decoded command's (43_control.md R191). -/
theorem exists_commandOutcome_of_execOutcome {o : CmdOutcome} (ho : execOutcome h w inovf inp = o)
    (hfail : ∀ k, o ≠ .fail k) (hclear : o ≠ .clearIn) :
    ∃ i, decode w = .ok i ∧ commandOutcome h i inp = o := by
  unfold execOutcome at ho
  cases hd : decode w with
  | error r =>
    rw [hd] at ho
    exact absurd ho.symm (hfail _)
  | ok i =>
    refine ⟨i, rfl, ?_⟩
    simp only [hd] at ho
    split at ho
    · exact absurd ho.symm hclear
    · split at ho
      · exact absurd ho.symm (hfail _)
      · exact ho

theorem decode_of_execOutcome_clearIn (ho : execOutcome h w inovf inp = .clearIn) :
    decode w = .ok .clrin := by
  unfold execOutcome at ho
  cases hd : decode w with
  | error r => simp [hd] at ho
  | ok i =>
    by_cases hi : i = .clrin
    · rw [hi]
    · cases inovf with
      | true => simp [hd, hi] at ho
      | false => exact absurd (by simpa [hd, hi] using ho) (commandOutcome_ne_clearIn hi h inp)

end

section
variable {h : Bytes → Bytes} {i : Instr} {inp : Bytes}

theorem producesOutput_of_out {bs : Bytes} (ho : commandOutcome h i inp = .out bs) :
    producesOutput i = true := by
  cases i with
  | csvalV v =>
    rcases outcomeOfValidate_cases (csDecode h (expectVersion v) inp) with ⟨b, hb⟩ | hk
    · exact nomatch hb.symm.trans ho
    · exact nomatch hk.symm.trans ho
  | clrin => cases ho
  | b58enc | b58dec | csencV v | csdec | csdecV v | frameV v | unframe | unframeV v => rfl

/-- A version and a payload are what CSDEC and UNFRAME answer (10_state.md R28). -/
theorem produces_of_decoded {v : Byte} {p : Bytes} (ho : commandOutcome h i inp = .decoded v p) :
    producesOutput i = true ∧ producesVersion i = true := by
  have hbytes : ∀ r, outcomeOfBytes r ≠ .decoded v p := fun r => by cases r <;> simp [outcomeOfBytes]
  cases i with
  | csvalV w =>
    rcases outcomeOfValidate_cases (csDecode h (expectVersion w) inp) with ⟨b, hb⟩ | hk
    · exact nomatch hb.symm.trans ho
    · exact nomatch hk.symm.trans ho
  | b58enc | clrin => cases ho
  | b58dec | csencV w | frameV w => exact absurd ho (hbytes _)
  | csdec | csdecV w | unframe | unframeV w => exact ⟨rfl, rfl⟩

end

/-! ### IN_LEN -/

/-- A write changes IN_LEN as an append to an idle block only (20_memory.md R53). -/
theorem State.inLen_busWrite {s : State} {width : Width} {off : Nat} {v : Word}
    (h : (s.busWrite width off v).inLen ≠ s.inLen) : s.busy = false ∧
      (s.busWrite width off v).inLen = s.inLen + 1 ∧ (width = .w8 ∨ width = .w32) ∧ off = 0x00C := by
  rcases s.busWrite_cases width off v with hw | ⟨-, -, hw⟩ | ⟨hwidth, hoff, hw⟩ <;> rw [hw] at h ⊢
  · exact absurd rfl h
  · rcases s.writeCmd_cases v with ⟨-, hc⟩ | ⟨-, hc⟩ <;> simp [hc] at h
  · rcases s.append_cases (v.setWidth 8) with ⟨-, ha⟩ | ⟨hb, -, ha⟩ | ⟨-, -, ha⟩ <;> rw [ha] at h ⊢
    · exact absurd rfl h
    · exact ⟨hb, rfl, hwidth.symm, hoff⟩
    · exact absurd rfl h

/-- The engine's turn changes IN_LEN as CLRIN's completion only (43_control.md R194). -/
theorem engineStep_inLen {s t : State} (h : engineStep s = .next t) (hne : t.inLen ≠ s.inLen) :
    s.busy = true ∧ decode s.cur = .ok .clrin ∧ t.inLen = 0 ∧ t.busy = false := by
  rcases engineStep_cases s with ⟨-, he⟩ | ⟨hrun, -, hash, -, he⟩ | ⟨-, -, he⟩ <;> cases he.symm.trans h
  · exact absurd rfl hne
  · have ho : execOutcome hash s.cur s.inovf s.input = .clearIn := by
      by_contra ho
      exact hne (State.inLen_commit ho s).1
    exact ⟨decide_eq_true hrun, decode_of_execOutcome_clearIn ho, by rw [ho]; rfl, by simp⟩
  · exact absurd rfl hne

@[simp] theorem State.hashAnswer_inLen (s : State) : s.hashAnswer.inLen = s.inLen := by
  rcases s.hashAnswer_cases with h | ⟨f, -, -, h⟩ <;> rw [h]
  rfl

/-- Settles O53: a write, CLRIN's completion, and the reset input are the steps that touch IN_LEN. -/
theorem inLenChangesInThreeWays : Obligations.InLenChangesInThreeWays := by
  intro s t hstep hne
  rcases step_cases hstep with ⟨-, h⟩ | ⟨e, es, hes, h⟩
  · exact .inr (.inl (engineStep_inLen h hne))
  rcases performEvent_cases h with ⟨a, rfl, hr, rfl⟩ | ⟨-, rfl⟩ | ⟨y, -, rfl⟩ | ⟨-, h⟩ | ⟨rfl, rfl⟩
  · cases a with
    | read width addr => exact absurd rfl hne
    | write width addr v =>
      obtain ⟨hb, hlen, hwidth, hoff⟩ := State.inLen_busWrite (s := s.withEvents es) hne
      refine .inl ⟨hb, hlen, width, v, es, hwidth, ?_⟩
      have haddr : addr = s.cfg.base + 0x00C := by
        obtain ⟨hlow, -⟩ : s.cfg.base ≤ addr ∧ addr < s.cfg.base + 0x2000 := hr
        simp only [State.withEvents_cfg] at hoff
        omega
      rw [hes, haddr]
  · exact absurd (State.hashAnswer_inLen _) hne
  · exact absurd rfl hne
  · exact .inr (.inl (engineStep_inLen (s := s.withEvents es) h hne))
  · exact .inr (.inr ⟨rfl, es, hes⟩)

/-! ### The result registers -/

/-- An outcome that is committed leaves the result registers, or it is a result, and then no failure. -/
theorem State.results_commit (o : CmdOutcome) (s : State) : s.KeepsResults (s.commit o) ∨
    (s.commit o).err = false ∧ ((∃ bs, o = .out bs ∧ (s.commit o).versionOut = s.versionOut) ∨
      ∃ v p, o = .decoded v p) := by
  cases o with
  | out bs => exact .inr ⟨rfl, .inl ⟨bs, rfl, rfl⟩⟩
  | decoded v p => exact .inr ⟨rfl, .inr ⟨v, p, rfl⟩⟩
  | valid b | clearIn | fail k => exact .inl ⟨rfl, rfl, rfl⟩

/-- A turn that changes the result registers completes a command that writes them (10_state.md R27, R28). -/
theorem engineStep_results {s t : State} (h : engineStep s = .next t) : s.KeepsResults t ∨
    s.busy = true ∧ t.busy = false ∧ t.done = true ∧ t.err = false ∧
      ∃ i, decode s.cur = .ok i ∧ producesOutput i = true ∧
        (t.versionOut = s.versionOut ∨ producesVersion i = true) := by
  rcases engineStep_cases s with ⟨-, he⟩ | ⟨hrun, -, hash, -, he⟩ | ⟨-, -, he⟩ <;> cases he.symm.trans h
  · exact .inl ⟨rfl, rfl, rfl⟩
  · refine (State.results_commit _ s).imp_right fun ⟨herr, ho⟩ =>
      ⟨decide_eq_true hrun, State.commit_busy _ s, State.commit_done _ s, herr, ?_⟩
    rcases ho with ⟨bs, ho, hv⟩ | ⟨v, p, ho⟩
    · obtain ⟨i, hi, hout⟩ := exists_commandOutcome_of_execOutcome ho (by simp) (by simp)
      exact ⟨i, hi, producesOutput_of_out hout, .inl hv⟩
    · obtain ⟨i, hi, hout⟩ := exists_commandOutcome_of_execOutcome ho (by simp) (by simp)
      obtain ⟨hpo, hpv⟩ := produces_of_decoded hout
      exact ⟨i, hi, hpo, .inr hpv⟩
  · exact .inl ⟨rfl, rfl, rfl⟩

theorem State.keepsResults_performAccess (a : Access) (s : State) : s.KeepsResults (s.performAccess a) := by
  rcases s.performAccess_cases a with h | ⟨d, h⟩ | ⟨-, h⟩ | ⟨w, -, h⟩ | ⟨b, -, -, h⟩ | ⟨-, -, h⟩ <;>
    rw [h] <;> exact ⟨rfl, rfl, rfl⟩

theorem State.keepsResults_hashAnswer (s : State) : s.KeepsResults s.hashAnswer := by
  rcases s.hashAnswer_cases with h | ⟨f, -, -, h⟩ <;> rw [h] <;> exact ⟨rfl, rfl, rfl⟩

/-- A step that is not a reset leaves the result registers or is the engine's turn. -/
theorem step_keepsResults_or_turn {s t : State} (h : step s = .next t)
    (hreset : ∀ es, s.events ≠ .resetInput :: es) :
    s.KeepsResults t ∨ ∃ es, engineStep (s.withEvents es) = .next t := by
  rcases step_cases h with ⟨hes, h⟩ | ⟨e, es, hes, h⟩
  · exact .inr ⟨[], State.withEvents_nil hes ▸ h⟩
  rcases performEvent_cases h with ⟨a, -, -, rfl⟩ | ⟨-, rfl⟩ | ⟨y, -, rfl⟩ | ⟨-, h⟩ | ⟨rfl, -⟩
  · exact .inl (State.keepsResults_performAccess a (s.withEvents es))
  · exact .inl (State.keepsResults_hashAnswer (s.withEvents es))
  · exact .inl ⟨rfl, rfl, rfl⟩
  · exact .inr ⟨es, h⟩
  · exact absurd hes (hreset es)

/-- Settles O54: the engine's turn alone changes the result registers, and only as a completion that writes
them. -/
theorem resultsChangeOnlyAtSuccess : Obligations.ResultsChangeOnlyAtSuccess := by
  intro s t hstep hreset
  have hturn : s.KeepsResults t ∨ s.busy = true ∧ t.busy = false ∧ t.done = true ∧ t.err = false ∧
      ∃ i, decode s.cur = .ok i ∧ producesOutput i = true ∧
        (t.versionOut = s.versionOut ∨ producesVersion i = true) := by
    rcases step_keepsResults_or_turn hstep hreset with h | ⟨es, h⟩
    · exact .inl h
    · exact engineStep_results (s := s.withEvents es) h
  rcases hturn with ⟨hbuf, hlen, hver⟩ | ⟨hb, hb', hdone, herr, i, hi, hpo, hpv⟩
  · exact ⟨.inl ⟨hbuf, hlen⟩, .inl hver⟩
  · exact ⟨.inr ⟨hb, hb', hdone, herr, i, hi, hpo⟩,
      hpv.imp_right fun hpv => ⟨hb, hb', hdone, herr, i, hi, hpv⟩⟩

/-! ### The outcome of a completed command (20_memory.md R62, 60_exceptions.md R210) -/

/-- BUSY, DONE, the result registers and the result fields of STATUS are unchanged. -/
def State.KeepsOutcome (s t : State) : Prop :=
  t.busy = s.busy ∧ t.done = s.done ∧ s.KeepsResults t ∧ t.err = s.err ∧ t.errcode = s.errcode ∧
    t.valid = s.valid ∧ t.cflag = s.cflag

theorem State.KeepsOutcome.refl (s : State) : s.KeepsOutcome s :=
  ⟨rfl, rfl, ⟨rfl, rfl, rfl⟩, rfl, rfl, rfl, rfl⟩

theorem State.KeepsOutcome.trans {s t u : State} (h : s.KeepsOutcome t) (h' : t.KeepsOutcome u) :
    s.KeepsOutcome u := by
  obtain ⟨hb, hd, ⟨hbuf, hlen, hver⟩, he, hcode, hval, hc⟩ := h
  obtain ⟨hb', hd', ⟨hbuf', hlen', hver'⟩, he', hcode', hval', hc'⟩ := h'
  exact ⟨hb'.trans hb, hd'.trans hd, ⟨hbuf'.trans hbuf, hlen'.trans hlen, hver'.trans hver⟩,
    he'.trans he, hcode'.trans hcode, hval'.trans hval, hc'.trans hc⟩

/-- An access to an idle block other than the CMD write keeps the outcome, the parameters and the schedule. -/
theorem State.keepsOutcome_performAccess {s : State} {a : Access} (hb : s.busy = false)
    (hr : s.cfg.inRegion a.address) (hcmd : ∀ w, a ≠ .write .w32 s.cfg.base w) :
    s.KeepsOutcome (s.performAccess a) ∧ (s.performAccess a).cfg = s.cfg ∧
      (s.performAccess a).events = s.events := by
  cases a with
  | read width addr => exact ⟨.refl _, rfl, rfl⟩
  | write width addr v =>
    rw [State.performAccess]
    rcases s.busWrite_cases width (addr - s.cfg.base) v with h | ⟨rfl, hoff, -⟩ | ⟨-, -, h⟩
    · rw [h]
      exact ⟨.refl _, rfl, rfl⟩
    · have haddr : addr = s.cfg.base := Nat.le_antisymm (Nat.sub_eq_zero_iff_le.1 hoff) hr.1
      exact absurd (congrArg (Access.write .w32 · v) haddr) (hcmd v)
    · rw [h]
      rcases s.append_cases (v.setWidth 8) with ⟨hbusy, -⟩ | ⟨-, -, ha⟩ | ⟨-, -, ha⟩
      · simp [hb] at hbusy
      all_goals
        rw [ha]
        exact ⟨.refl _, rfl, rfl⟩

/-- Every event that neither writes CMD nor resets happens to an idle block, and keeps the same. -/
theorem exists_performEvent_keepsOutcome {s : State} {e : Event} (hb : s.busy = false)
    (he : NoCommandNoReset s.cfg e) : ∃ t, performEvent e s = .next t ∧ s.KeepsOutcome t ∧
      t.cfg = s.cfg ∧ t.events = s.events := by
  have hidle : s.eng = .idle := by
    cases heng : s.eng with
    | idle => rfl
    | run => simp [State.busy, heng] at hb
  cases e with
  | host a =>
    obtain ⟨hr, hcmd⟩ := he
    exact ⟨_, if_pos hr, State.keepsOutcome_performAccess hb hr hcmd⟩
  | hashAnswer =>
    have hans := State.hashAnswer_of_hashRequest (State.hashRequest_of_idle hidle)
    exact ⟨s, congrArg _ hans, .refl _, rfl, rfl⟩
  | strayResponse y => exact ⟨s, rfl, .refl _, rfl, rfl⟩
  | engine => exact ⟨s, engineStep_of_idle hidle, .refl _, rfl, rfl⟩
  | resetInput => exact he.elim

/-- The same of a step, which takes its event; with none listed it is the idle engine's turn. -/
theorem exists_step_keepsOutcome {s : State} (hb : s.busy = false)
    (hev : ∀ e ∈ s.events, NoCommandNoReset s.cfg e) : ∃ t, step s = .next t ∧ s.KeepsOutcome t ∧
      t.cfg = s.cfg ∧ t.events = s.events.tail := by
  unfold step
  cases hes : s.events with
  | nil =>
    obtain ⟨t, hstep, hkeep, hcfg, hevents⟩ :=
      exists_performEvent_keepsOutcome (e := .engine) hb trivial
    exact ⟨t, hstep, hkeep, hcfg, hevents.trans hes⟩
  | cons e es =>
    exact exists_performEvent_keepsOutcome (s := s.withEvents es) hb (hev e (by simp [hes]))

/-- `t` is idle with the outcome of `s`, and nothing that it lists writes CMD or resets. -/
def State.HoldsOutcome (s t : State) : Prop :=
  t.busy = false ∧ s.KeepsOutcome t ∧ ∀ e ∈ t.events, NoCommandNoReset t.cfg e

theorem State.HoldsOutcome.exists_step {s t : State} (h : s.HoldsOutcome t) :
    ∃ u, step t = .next u ∧ s.HoldsOutcome u := by
  obtain ⟨hb, hkeep, hev⟩ := h
  obtain ⟨u, hstep, hkeep', hcfg, hevents⟩ := exists_step_keepsOutcome hb hev
  refine ⟨u, hstep, hkeep'.1.trans hb, hkeep.trans hkeep', fun e he => ?_⟩
  rw [hevents] at he
  rw [hcfg]
  exact hev e (List.mem_of_mem_tail he)

/-- Settles O57: an idle block that holds the outcome holds it after every step. -/
theorem outcomeStaysUntilTheNextCommand : Obligations.OutcomeStaysUntilTheNextCommand := by
  intro s hb hd hev n
  obtain ⟨t, hrun, hbt, ⟨-, hdt, hkept⟩, -⟩ :=
    run_keeps (fun _ => State.HoldsOutcome.exists_step) n (s := s) ⟨hb, .refl _, hev⟩
  exact ⟨t, hrun, hbt, hdt.trans hd, hkept⟩

/-! ### `run cmd` (30_encoding.md R90) -/

/-- Polls of STATUS change nothing but what the host holds of them. -/
theorem run_polls (k n : Nat) {s : State} {es : List Event}
    (he : s.events = List.replicate k (rd32 s.cfg.base 0x004) ++ es) :
    ∃ d, Sys2Proof.core.run (k + n) s = Sys2Proof.core.run n ((s.observe d).withEvents es) := by
  induction k generalizing s with
  | zero =>
    obtain rfl : s.events = es := he
    exact ⟨s.busData, by rw [Nat.zero_add]; rfl⟩
  | succ k ih =>
    obtain ⟨d, hd⟩ := ih (s := (s.withEvents (List.replicate k (rd32 s.cfg.base 0x004) ++ es)).observe
      (s.busRead .w32 0x004)) rfl
    refine ⟨d, ?_⟩
    rw [Nat.add_right_comm]
    exact (run_succ (k + n) (step_read (by decide) he)).trans hd

theorem State.hashAnswer_withEvents (s : State) (es : List Event) :
    (s.withEvents es).hashAnswer = s.hashAnswer.withEvents es := by
  cases hr : s.hashRequest with
  | none =>
    rw [State.hashAnswer_of_hashRequest hr]
    exact State.hashAnswer_of_hashRequest (s := s.withEvents es) hr
  | some f =>
    rw [State.hashAnswer_of_hashRequest_some hr]
    exact State.hashAnswer_of_hashRequest_some (s := s.withEvents es) hr

theorem State.commit_receiveDigest (o : CmdOutcome) (y : Bytes) (s : State) :
    (s.receiveDigest y).commit o = s.commit o := by
  cases o <;> rfl

theorem State.commit_withEvents (o : CmdOutcome) (es : List Event) (s : State) :
    (s.withEvents es).commit o = (s.commit o).withEvents es := by
  cases o <;> rfl

theorem State.commit_observe (o : CmdOutcome) (d : Word) (s : State) :
    (s.observe d).commit o = (s.commit o).observe d := by
  cases o <;> rfl

/-- Once the collaborator has had its turn, the engine's turn commits Exec(CUR) under H: the response, if the
command needs one, has arrived, and it is H's. -/
theorem engineStep_hashAnswer {s : State} (he : s.eng = .run) (hd : s.digest = none) :
    engineStep s.hashAnswer =
      .next (s.commit (execOutcome Config.checksumHash s.cur s.inovf s.input)) := by
  cases hr : s.neededRequest with
  | none =>
    have hnone : s.hashRequest = none := by rw [State.hashRequest, hd, hr]
    rw [State.hashAnswer_of_hashRequest hnone]
    rcases engineStep_cases s with ⟨hidle, -⟩ | ⟨-, -, h, -, hstep⟩ | ⟨-, ⟨f, hf⟩, -⟩
    · simp [he] at hidle
    · rw [hstep, State.execOutcome_congr he (by simp [hr])]
    · simp [hnone] at hf
  | some f =>
    have hsome : s.hashRequest = some f := State.hashRequest_eq_some.2 ⟨hd, hr⟩
    rw [State.hashAnswer_of_hashRequest_some hsome]
    rcases engineStep_cases (s.receiveDigest (Config.checksumHash f)) with
      ⟨hidle, -⟩ | ⟨-, -, h, hh, hstep⟩ | ⟨-, ⟨f', hf'⟩, -⟩
    · simp [he] at hidle
    · have hcongr : execOutcome h s.cur s.inovf s.input =
          execOutcome Config.checksumHash s.cur s.inovf s.input := by
        refine State.execOutcome_congr he fun f' hf' => ?_
        cases hr.symm.trans hf'
        exact hh f _ hr rfl
      rw [hstep, State.commit_receiveDigest]
      exact congrArg (fun o => Host.Outcome.next (s.commit o)) hcongr
    · simp [State.hashRequest] at hf'

/-- The end of `wait`: the collaborator's turn, the engine's, and the last poll. -/
theorem run_waitEnd {s c : State} (he : s.eng = .run) (hd : s.digest = none)
    (hev : s.events = [.hashAnswer, .engine, rd32 s.cfg.base 0x004])
    (hc : s.commit (execOutcome Config.checksumHash s.cur s.inovf s.input) = c) :
    Sys2Proof.core.run 3 s = .next ((c.withEvents []).observe c.status) := by
  have hanswer := step_hashAnswer hev
  have hturn : step (s.withEvents [.engine, rd32 s.cfg.base 0x004]).hashAnswer =
      .next (c.withEvents [rd32 s.cfg.base 0x004]) := by
    have hengine := engineStep_hashAnswer (s := s.withEvents [rd32 s.cfg.base 0x004]) he hd
    rw [State.commit_withEvents, State.hashAnswer_withEvents] at hengine
    rw [State.hashAnswer_withEvents, ← hc]
    exact hengine
  have hread : step (c.withEvents [rd32 s.cfg.base 0x004]) =
      .next ((c.withEvents []).observe c.status) := by
    refine step_read (s := c.withEvents [rd32 s.cfg.base 0x004]) (width := .w32) (off := 0x004) (es := [])
      (by decide) ?_
    rw [← hc, State.withEvents_cfg, State.commit_cfg]
    rfl
  rw [run_succ 2 hanswer, run_succ 1 hturn, run_succ 0 hread]
  rfl

/-- `wait`: the polls before the end leave nothing that its last poll does not overwrite. -/
theorem run_wait {s c : State} {polls : Nat} (he : s.eng = .run) (hd : s.digest = none)
    (hev : s.events = wait s.cfg.base polls)
    (hc : s.commit (execOutcome Config.checksumHash s.cur s.inovf s.input) = c) :
    Sys2Proof.core.run (polls + 3) s = .next ((c.withEvents []).observe c.status) := by
  obtain ⟨d, hpolls⟩ := run_polls polls 3 hev
  have hcommit : ∀ es, ((s.observe d).withEvents es).commit
      (execOutcome Config.checksumHash s.cur s.inovf s.input) = (c.observe d).withEvents es := fun es => by
    rw [State.commit_withEvents, State.commit_observe, hc]
  exact hpolls.trans (run_waitEnd (s := (s.observe d).withEvents _) (c := (c.observe d).withEvents _)
    he hd rfl (hcommit _))

/-- The accept that `run cmd` begins with. -/
theorem step_command {s : State} {i : Instr} {es : List Event} (hb : s.busy = false)
    (he : s.events = command s.cfg.base i :: es) : step s = .next ((s.withEvents es).accept (encode i)) := by
  rw [step_cmdWrite (w := encode i) he]
  rcases (s.withEvents es).writeCmd_cases (encode i) with ⟨hbusy, -⟩ | ⟨-, hacc⟩
  · simp [hb] at hbusy
  · rw [hacc]

/-- Settles O59: the accept, then `wait`. -/
theorem issuedCommandCompletes : Obligations.IssuedCommandCompletes := by
  intro s i polls _ hb hev
  generalize ho : execOutcome Config.checksumHash (encode i) s.inovf s.input = o
  generalize hc : ((s.withEvents []).accept (encode i)).commit o = c
  have hidle : c.eng = .idle := hc ▸ State.commit_eng o _
  have hdone : c.done = true := hc ▸ State.commit_done o _
  have hnil : c.events = [] := hc ▸ State.commit_events o _
  have haccepted : ((s.withEvents (wait s.cfg.base polls)).accept (encode i)).commit o =
      c.withEvents (wait s.cfg.base polls) :=
    hc ▸ State.commit_withEvents o _ ((s.withEvents []).accept (encode i))
  have hwait := run_wait (s := (s.withEvents (wait s.cfg.base polls)).accept (encode i)) (polls := polls)
    rfl rfl rfl (ho.symm ▸ haccepted)
  refine ⟨(c.withEvents []).observe c.status, (run_succ (polls + 3) (step_command hb hev)).trans hwait,
    ⟨hidle, rfl⟩, hdone, rfl, ?_⟩
  rw [State.withEvents_nil hnil]
  rfl

end Sys2Proof.Machine
end
